-- ==== Sys2Proof/Word.lean ====
section
/-! DEFINITION. The types of the values the core works on (00_scope.md R6, R8, R9). -/

namespace Sys2Proof

/-- A byte of memory, of a key, or of a state block. -/
abbrev Byte := BitVec 8

/-- 32 bits: a lane of a word (R9), a word of the command or response channel (R60), an address. -/
abbrev Lane := BitVec 32

/-- 128 bits: a round key, a state block, a field element (R6 `WORDBITS`). -/
abbrev Word := BitVec 128

end Sys2Proof
end

