-- ==== Sys2Proof/Machine/Bits.lean ====
section
/-! DEFINITION. Lanes, bytes and byte order (00_scope.md R8 to R11; 20_memory.md R41): the first
byte, lane or channel word is always the least significant. -/

namespace Sys2Proof.Machine

/-- Lane `j` of a word, `W.Lj = W[32j+31 : 32j]` (R9). -/
def laneOf (W : Word) (j : Nat) : Lane := W.extractLsb' (32 * j) 32

/-- Byte `k` of a word, `W.Bk = W[8k+7 : 8k]` (R9). -/
def byteOf (W : Word) (k : Nat) : Byte := W.extractLsb' (8 * k) 8

/-- Byte `k` of a lane, `v[8k+7 : 8k]` (R9). -/
def laneByte (v : Lane) (k : Nat) : Byte := v.extractLsb' (8 * k) 8

/-- The word whose fields `0 .. n-1` of width `w` are `f 0 .. f (n-1)`, field 0 least significant. -/
def pack {w : Nat} (f : Nat → BitVec w) : Nat → Word
  | 0 => 0
  | n + 1 => pack f n ||| ((f n).setWidth 128 <<< (w * n))

/-- The word with the 16 bytes `b 0 .. b 15` (R10). -/
def wordOfBytes (b : Nat → Byte) : Word := pack b 16

/-- The word with the four lanes `{l3, l2, l1, l0}` (R9, R70). -/
def wordOfLanes (l0 l1 l2 l3 : Lane) : Word := l3 ++ l2 ++ l1 ++ l0

/-- The lane with the four bytes `{b3, b2, b1, b0}` (R9). -/
def laneOfBytes (b0 b1 b2 b3 : Byte) : Lane := b3 ++ b2 ++ b1 ++ b0

/-- `bytes_to_word` (R10): a sequence of 16 bytes as a word. A missing byte counts as 0. -/
def bytesToWord (b : List Byte) : Word := wordOfBytes fun k => b.getD k 0

/-- `word_to_bytes` (R10). -/
def wordToBytes (W : Word) : List Byte := (List.range 16).map (byteOf W)

/-- `ror32(v, n)` (R11). -/
def ror32 (v : Lane) (n : Nat) : Lane := (v >>> n) ||| (v <<< (32 - n))

end Sys2Proof.Machine
end

