-- ==== Sys2Proof/Config.lean ====
section
/-! DEFINITION. What is fixed for the machine (00_scope.md R6) and the values the spec leaves open.
The opaque constants are the free values: no proof can see what they are. -/

namespace Sys2Proof.Config

/-- `ALIGN_BYTES` (R6, R44): the alignment of the aligned variant of a block command. -/
def alignBytes : Nat := 16

/-- The size of the one access width the core has, a whole block (R43). -/
def blockBytes : Nat := 16

/-- The number of byte addresses, `2 ^ AW` (R6, R40). -/
def addressSpace : Nat := 2 ^ 32

/-- The number of values of a block count, `2 ^ CW` (R6, R68). -/
def countSpace : Nat := 2 ^ 32

/-- `NWAY` (R6): blocks processed in lockstep by the pipeline. -/
def nway : Nat := 4

/-- `LAT_ROUND` (R6, U8): the latency of the round unit. No rule depends on it (log 19). -/
opaque latRound : Nat

/-- What entry `i` of the round-key RAM holds after the reset numbered `draw`, given what the whole RAM
held when reset struck: it may be that, or anything (R27, R34, R205, U4, U18; log 2). -/
opaque resetRoundKey : (draw : Nat) → (held : Vector Word 15) → (i : Nat) → Word

/-- Whether entry `i` of the round-key RAM already held the value of the abandoned command when the
reset numbered `draw` struck (R206; log 10). -/
opaque abandonedEntryIsNew : (draw : Nat) → (i : Nat) → Bool

/-- How many further words of a command the core had taken when a reset that lands inside the
command numbered `draw` struck (R205, R206; log 10). -/
opaque abandonedWordsTaken : (draw : Nat) → Nat

/-- Whether the byte at address `a` already held the abandoned command's new value when the reset
numbered `draw` struck (R206, U12; log 10). -/
opaque abandonedByteIsNew : (draw : Nat) → (a : Nat) → Bool

end Sys2Proof.Config
end

