-- ==== Sys2Proof/Syntax.lean ====
section
/-! DEFINITION. The six commands (30_encoding.md R64), one constructor per row of opcode_table.json.
Operands are assembled (R65 to R70): a multi-word operand is one word, an address or a count is the
unsigned number its 32 bits spell (R70, R11; log 17). -/

namespace Sys2Proof

/-- A command with its operands. -/
inductive Instr where
  /-- EXP128 (R114): `kw0` is the key, `{K3, K2, K1, K0}`. -/
  | exp128 (kw0 : Word)
  /-- EXP256 (R117): `kw0` is key bytes 0 to 15, `kw1` key bytes 16 to 31. -/
  | exp256 (kw0 kw1 : Word)
  /-- ENC1 (R128): `u` is header bit 8, `addr` the byte address of the block. -/
  | enc1 (u : Bool) (addr : Nat)
  /-- ENC4 (R131): `addr` is the byte address of the first of four blocks. -/
  | enc4 (u : Bool) (addr : Nat)
  /-- RUN (R145): `n` blocks from byte address `addr`. -/
  | run (u : Bool) (addr n : Nat)
  /-- DBL (R161): `x` is the field element, `{X3, X2, X1, X0}`. -/
  | dbl (x : Word)
deriving DecidableEq, Repr

end Sys2Proof
end

