-- ==== Sys2Proof/WellFormed.lean ====
section
/-! DEFINITION. Which commands an encoding exists for: an address is an `AW`-bit number, a block
count a `CW`-bit number (00_scope.md R6; 30_encoding.md R67, R68). Keys and field elements are 128
bits by their type, and every value of them is legal (R65, R66, R69). -/

namespace Sys2Proof

/-- The address operand fits its 32-bit payload word (R67). -/
def addressFits (addr : Nat) : Bool := decide (addr < Config.addressSpace)

/-- The count operand fits its 32-bit payload word (R68). -/
def countFits (n : Nat) : Bool := decide (n < Config.countSpace)

/-- The command has an encoding. -/
def WellFormed : Instr → Bool
  | .exp128 _ => true
  | .exp256 _ _ => true
  | .enc1 _ addr => addressFits addr
  | .enc4 _ addr => addressFits addr
  | .run _ addr n => addressFits addr && countFits n
  | .dbl _ => true

end Sys2Proof
end

