-- ==== Sys2Proof/Decode.lean ====
section
/-! DEFINITION. Command words to commands and back (30_encoding.md R60 to R71, R74, R78). The
decoder is total: it answers a command and the words after it, or says by name why it does not. -/

namespace Sys2Proof

/-- The six opcodes (R64). -/
inductive Opcode where
  | exp128 | exp256 | enc1 | enc4 | run | dbl
deriving DecidableEq, Repr

/-- A row of the match and mask table (R78). -/
structure OpcodeRow where
  op    : Opcode
  value : Lane
  mask  : Lane
deriving DecidableEq, Repr

/-- Why no command is read. -/
inductive DecodeError where
  /-- There is no header word. -/
  | noHeader
  /-- The header selects no row: `OP` undefined, `RSV` not 0, or `U = 1` where it must be 0 (R74). -/
  | illegalHeader (h : Lane)
  /-- The header is legal and fewer words follow than its opcode calls for (R71). -/
  | payloadMissing (op : Opcode)
deriving DecidableEq, Repr

/-- Header field `OP = H[7:0]` (R62). -/
def headerOp (h : Lane) : BitVec 8 := h.extractLsb' 0 8

/-- Header field `U = H[8]` (R62). -/
def headerU (h : Lane) : Bool := h.getLsbD 8

/-- Header field `RSV = H[31:9]` (R62). -/
def headerRsv (h : Lane) : BitVec 23 := h.extractLsb' 9 23

/-- The opcode table as match and mask (R78). -/
def opcodeTable : List OpcodeRow :=
  [⟨.exp128, 0x00000001, 0xFFFFFFFF⟩,
   ⟨.exp256, 0x00000002, 0xFFFFFFFF⟩,
   ⟨.enc1, 0x00000003, 0xFFFFFEFF⟩,
   ⟨.enc4, 0x00000004, 0xFFFFFEFF⟩,
   ⟨.run, 0x00000005, 0xFFFFFEFF⟩,
   ⟨.dbl, 0x00000006, 0xFFFFFFFF⟩]

/-- The opcode a header selects: `H & mask = match` (R78); none if it is illegal (R74). -/
def selectOpcode (h : Lane) : Option Opcode :=
  (opcodeTable.find? fun row => h &&& row.mask == row.value).map (·.op)

/-- Payload words after the header (R64). -/
def payloadWords : Opcode → Nat
  | .exp128 => 4
  | .exp256 => 8
  | .enc1 => 1
  | .enc4 => 1
  | .run => 2
  | .dbl => 4

/-- Read the payload of a command of the given row and variant: the command and the words after it;
none if there are fewer words than the row calls for (R65 to R69, R71). -/
def readPayload (u : Bool) : Opcode → List Lane → Option (Instr × List Lane)
  | .exp128, k0 :: k1 :: k2 :: k3 :: rest => some (.exp128 (Machine.wordOfLanes k0 k1 k2 k3), rest)
  | .exp256, k0 :: k1 :: k2 :: k3 :: k4 :: k5 :: k6 :: k7 :: rest =>
    some (.exp256 (Machine.wordOfLanes k0 k1 k2 k3) (Machine.wordOfLanes k4 k5 k6 k7), rest)
  | .enc1, addr :: rest => some (.enc1 u addr.toNat, rest)
  | .enc4, addr :: rest => some (.enc4 u addr.toNat, rest)
  | .run, addr :: n :: rest => some (.run u addr.toNat n.toNat, rest)
  | .dbl, x0 :: x1 :: x2 :: x3 :: rest => some (.dbl (Machine.wordOfLanes x0 x1 x2 x3), rest)
  | _, _ => none

/-- Read one command from the front of a list of command words. -/
def decode : List Lane → Except DecodeError (Instr × List Lane)
  | [] => .error .noHeader
  | h :: ws =>
    match selectOpcode h with
    | none => .error (.illegalHeader h)
    | some op =>
      match readPayload (headerU h) op ws with
      | some r => .ok r
      | none => .error (.payloadMissing op)

/-- A header word from its fields, `RSV = 0` (R62). -/
def headerWord (op : BitVec 8) (u : Bool) : Lane := op.setWidth 32 ||| ((BitVec.ofBool u).setWidth 32 <<< 8)

/-- The four channel words of a 128-bit operand, first word least significant (R70). -/
def operandWords (W : Word) : List Lane := (List.range 4).map (Machine.laneOf W)

/-- The words of a command (R65 to R69). -/
def encode : Instr → List Lane
  | .exp128 kw0 => headerWord 0x01 false :: operandWords kw0
  | .exp256 kw0 kw1 => headerWord 0x02 false :: (operandWords kw0 ++ operandWords kw1)
  | .enc1 u addr => [headerWord 0x03 u, BitVec.ofNat 32 addr]
  | .enc4 u addr => [headerWord 0x04 u, BitVec.ofNat 32 addr]
  | .run u addr n => [headerWord 0x05 u, BitVec.ofNat 32 addr, BitVec.ofNat 32 n]
  | .dbl x => headerWord 0x06 false :: operandWords x

/-- The channel words of a table word `w` of `nbits` bits: the first channel word is bits 31..0, the
next bits 63..32, and so on; bits from `nbits` on are 0. Exactly the words the header calls for are
laid out; for an illegal header, the header alone. -/
def tableWords (nbits w : Nat) : List Lane :=
  let word (i : Nat) : Lane := BitVec.ofNat 32 ((w >>> (32 * i)) % 2 ^ min 32 (nbits - 32 * i))
  match selectOpcode (word 0) with
  | none => [word 0]
  | some op => (List.range (1 + payloadWords op)).map word

/-- The command the decoder reads from a table word. -/
def decodeTableWord (nbits w : Nat) : Option Instr :=
  match decode (tableWords nbits w) with
  | .ok (i, _) => some i
  | .error _ => none

end Sys2Proof
end

