-- ==== Sys2Proof/Machine/State.lean ====
section
/-! DEFINITION. The state of the core and of the host that drives it, as plain data, and its value
right after reset (10_state.md R20 to R34; 30_encoding.md R60, R61; 70_reset_and_hazards.md R205). -/

namespace Sys2Proof.Machine

/-- The block memory (20_memory.md R40): address and byte, addresses strictly rising, no entry equal
to what an unlisted address reads as. -/
abbrev Memory := List Host.Cell

/-- What a byte of memory that nothing has written reads as. DESIGN CHOICE (log 4): the spec gives no
contents. -/
def unwrittenByte : Byte := 0

/-- A run of byte addresses `[base, base + size)`. -/
structure Region where
  base : Nat
  size : Nat
deriving DecidableEq, Repr

/-- The codes of the four faults (60_exceptions.md R176). -/
inductive FaultCode where
  | illegalCmd | noContext | bounds | align
deriving DecidableEq, Repr

/-- A move of the host agent, or its leaving the next move to the core (00_scope.md R7; log 7). -/
inductive HostAction where
  /-- Send one word on the command channel (R60). -/
  | sendWord (w : Lane)
  /-- Take the oldest word from the response channel (R60). -/
  | takeWord
  /-- Write a byte of the host's own memory (R7, R52). -/
  | writeByte (addr : Lane) (b : Byte)
  /-- The platform decides `Buf` anew (R46). -/
  | setBuf (regions : List Region)
  /-- Assert reset between two commands (R205). -/
  | reset
  /-- Assert reset while the core is at the next command (R206). -/
  | resetInCommand
  /-- The core makes the next move. -/
  | coreTurn
deriving DecidableEq, Repr

/-- The state. INVENTORY.md, "State", gives each field's rule and value after reset. -/
structure State where
  /-- `RK[0..14]`, the round-key RAM (R21). -/
  rk    : Vector Word 15
  /-- `NR`, the round count (R28). -/
  nr    : BitVec 4
  /-- `FLT`, the fault register (R29). -/
  flt   : BitVec 8
  /-- Words of a partly received command, header first (R61, R205). -/
  frame : List Lane
  /-- The command channel, oldest word first (R60). -/
  cmd   : List Lane
  /-- The response channel, oldest word first (R60). -/
  resp  : List Lane
  /-- The block memory (R40). -/
  mem   : Memory
  /-- `Buf`, the byte addresses the platform admits (R46). -/
  buf   : List Region
  /-- What the host agent will still do, oldest first (R7; log 7). -/
  host  : List HostAction
  /-- How many free draws have been made (log 3). -/
  draws : Nat
deriving DecidableEq, Repr

/-- Why there is no step. None of these is a fault of the core's own: a fault the core raises (R176)
is a next state. All three are safe: the machine waits, and nothing is claimed about what follows. -/
inductive Fault where
  /-- Raised by the core's move: `FLT` is not 0, so the core takes no word and changes nothing until
  reset (R187). Safe. -/
  | halted
  /-- Raised by the core's move: no word of a next command is in the channel; the core is idle
  (R193). Safe. -/
  | awaitingHeader
  /-- Raised by the core's move: payload words of the command being received are missing and none is
  in the channel (R208, U7). Safe. -/
  | awaitingPayload
deriving DecidableEq, Repr

/-- Why an instruction has no meaning. -/
inductive Refusal where
  /-- Raised by the dispatch for a command that has no meaning in the model. Safe. None is left. -/
  | notModelled (mnemonic : String)
deriving DecidableEq, Repr

/-- The machine right after reset (R34, R205). `rk`, `mem`, `buf`, the channels, `host` and `draws` hold
values the model chose (logs 1, 4, 5, 6, 7, 3): the spec states none. -/
def State.reset : State where
  rk    := Vector.replicate 15 0
  nr    := 0
  flt   := 0
  frame := []
  cmd   := []
  resp  := []
  mem   := []
  buf   := [⟨0, Config.addressSpace⟩]
  host  := []
  draws := 0

end Sys2Proof.Machine
end

