-- ==== Sys2Proof/Machine/Flags.lean ====
section
/-! DEFINITION. The fault register, the FAULT output and the status word (10_state.md R29, R31;
60_exceptions.md R176, R188; 30_encoding.md R72). The core has no condition flags: `FLT` is the only
status a command can set. -/

namespace Sys2Proof.Machine

/-- The number of a fault (R176). -/
def FaultCode.code : FaultCode → BitVec 8
  | .illegalCmd => 1
  | .noContext => 2
  | .bounds => 3
  | .align => 4

/-- `FLT` after a fault is raised: the code of the first fault since reset stays (R29; log 14). -/
def fltAfter (flt : BitVec 8) (c : FaultCode) : BitVec 8 := if flt = 0 then c.code else flt

/-- The core is faulted (R15). -/
def State.faulted (s : State) : Bool := s.flt != 0

/-- The FAULT output, the level `FLT != 0` (R188). -/
def State.faultOutput (s : State) : Bool := s.faulted

/-- The status word `S`: `S[7:0]` is the code, `S[31:8]` is 0 (R72). -/
def statusWord (code : BitVec 8) : Lane := code.setWidth 32

/-- `NR` holds a legal round count, 10 or 14: the context is valid (R15, R126). -/
def validContext (nr : BitVec 4) : Bool := nr == 10 || nr == 14

end Sys2Proof.Machine
end

