-- ==== Sys2Proof/Machine/Ops.lean ====
section
/-! DEFINITION. The operations every command shares: memory, the memory port, the round-key RAM,
responses, fault entry, reset. -/

namespace Sys2Proof.Machine

/-! ### Memory (20_memory.md R40, R41) -/

/-- Addresses strictly rise from above `lo` and stay in the space, and no entry could be left out. -/
def Memory.risesFrom : Nat → Memory → Bool
  | _, [] => true
  | lo, (a, b) :: m => decide (lo ≤ a) && decide (a < Config.addressSpace) && b != unwrittenByte && Memory.risesFrom (a + 1) m

/-- The canonical form of a memory. -/
def Memory.wf (m : Memory) : Bool := Memory.risesFrom 0 m

/-- The byte at address `a`. -/
def readByte : Memory → Nat → Byte
  | [], _ => unwrittenByte
  | (k, v) :: m, a => if k = a then v else readByte m a

/-- List byte `b` at address `a`, keeping addresses in rising order. -/
def insertByte : Memory → Nat → Byte → Memory
  | [], a, b => [(a, b)]
  | (k, v) :: m, a, b =>
    if a < k then (a, b) :: (k, v) :: m
    else if a = k then (a, b) :: m
    else (k, v) :: insertByte m a b

/-- Write byte `b` at address `a`, keeping the canonical form. -/
def writeByte (m : Memory) (a : Nat) (b : Byte) : Memory :=
  if b = unwrittenByte then m.filter (fun c => c.1 != a) else insertByte m a b

/-- The block at address `a` as a word, `bytes_to_word(MemRead(a, 16))`: byte `k` at `a + k` (R41). -/
def readBlock (m : Memory) (a : Nat) : Word := wordOfBytes fun k => readByte m (a + k)

/-- `MemWrite(a, 16, word_to_bytes(W))` (R12, R41). -/
def writeBlock (m : Memory) (a : Nat) (W : Word) : Memory :=
  (List.range Config.blockBytes).foldl (fun m k => writeByte m (a + k) (byteOf W k)) m

/-! ### The memory port: whole blocks, with a record of the accesses (R43) -/

/-- Reads or writes. -/
inductive AccessKind where
  | read | write
deriving DecidableEq, Repr

/-- One access of the memory port: the 16 bytes from `addr` (R43). -/
structure Access where
  kind : AccessKind
  addr : Nat
deriving DecidableEq, Repr

/-- The memory behind the port and the accesses made so far, oldest first (log 18). -/
structure Port where
  mem : Memory
  log : List Access
deriving DecidableEq, Repr

/-- Read the block at `a`. -/
def Port.readAt (p : Port) (a : Nat) : Word × Port :=
  (readBlock p.mem a, { p with log := p.log ++ [⟨.read, a⟩] })

/-- Write the block at `a`. -/
def Port.writeAt (p : Port) (a : Nat) (W : Word) : Port :=
  { mem := writeBlock p.mem a W, log := p.log ++ [⟨.write, a⟩] }

/-! ### The round-key RAM (10_state.md R21) -/

/-- `RK[i]`. There is no entry above 14 and no rule reads one (log 21). -/
def State.rkAt (s : State) (i : Nat) : Word := s.rk.getD i 0

/-- `RK[i] <- W` in a register file. -/
def rkSet (rk : Vector Word 15) (i : Nat) (W : Word) : Vector Word 15 := rk.setIfInBounds i W

/-! ### Responses (30_encoding.md R72) -/

/-- Send words on the response channel. -/
def State.respond (s : State) (ws : List Lane) : State := { s with resp := s.resp ++ ws }

/-- The response of a completed command that returns nothing: status 0 (R72, R73). -/
def State.respondOk (s : State) : State := s.respond [statusWord 0]

/-! ### Taking a fault (60_exceptions.md R186) -/

/-- `raise Fault(code)`: `FLT` takes the code, the one status word is sent, nothing else changes. There
is no handler and no saved state, and no return but reset (R189). -/
def raiseFault (c : FaultCode) (s : State) : State :=
  { s with flt := fltAfter s.flt c }.respond [statusWord c.code]

/-! ### Reset (70_reset_and_hazards.md R205, R206): the only way out of a fault (R189) -/

/-- The reset input: `NR` and `FLT` become 0, words of a partly received command are discarded, and
every round-key entry holds an unspecified value. DESIGN CHOICE (log 2): that value is free for each
reset and entry, and may depend on what the RAM held, so that neither keeping nor clearing the old key
can be proved (R27, U18). Memory, `Buf` and the channels stay (log 11). -/
def State.applyReset (s : State) : State :=
  { s with
    rk := Vector.ofFn fun i => Config.resetRoundKey s.draws s.rk i
    nr := 0
    flt := 0
    frame := []
    draws := s.draws + 1 }

/-- The round-key RAM in which each entry is that of `new` where `pick` says so and that of `old`
elsewhere. -/
def mixKeys (pick : Nat → Bool) (old new : Vector Word 15) : Vector Word 15 :=
  Vector.ofFn fun i => if pick i then new.getD i 0 else old.getD i 0

/-- The memory in which each byte is that of `new` where `pick` says so and that of `old` elsewhere. -/
def mixMemory (pick : Nat → Bool) (old new : Memory) : Memory :=
  (old ++ new).foldl
    (fun m c => writeByte m c.1 (if pick c.1 then readByte new c.1 else readByte old c.1)) new

end Sys2Proof.Machine
end

