-- ==== Sys2Proof/Machine/Doubler.lean ====
section
/-! DEFINITION. The GF(2^128) doubler: DBL (44_field_doubler.md). -/

namespace Sys2Proof.Machine

/-- `REDUCTION_POLY`, `x^7 + x^2 + x + 1` (R163). -/
def reductionPoly : Word := 0x87

/-- The mask of the branchless form: all ones if the top bit is 1, else all zeros (R162). -/
def topBitMask (x : Word) : Word := 0 - (x.extractLsb' 127 1).setWidth 128

/-- The doubling step in its branchless form (R162). -/
def double (x : Word) : Word := (x <<< 1) ^^^ (topBitMask x &&& reductionPoly)

/-- The response of a completed DBL: status 0 and the four words of the result (R72, R161). -/
def doubleResponse (y : Word) : List Lane := statusWord 0 :: (List.range 4).map (laneOf y)

/-- DBL (R161). -/
def execDbl (x : Word) (s : State) : Host.Outcome State Fault Refusal :=
  .next (s.respond (doubleResponse (double x)))

end Sys2Proof.Machine
end

