-- ==== Sys2Proof/Machine/Aes.lean ====
section
/-! DEFINITION. The AES datapath primitives (40_aes_primitives.md R85 to R98). -/

namespace Sys2Proof.Machine

/-! ### GF(2^8) (R86, R87) -/

/-- Multiplication by `x` (R86). -/
def xtime (a : Byte) : Byte := (a <<< 1) ^^^ (if a.getLsbD 7 then 0x1B else 0x00)

/-- `xtime` applied `i` times (R86). -/
def xtimes : Nat → Byte → Byte
  | 0, a => a
  | i + 1, a => xtime (xtimes i a)

/-- The product: the XOR of `xtime^i(a)` over the bits `i` of `b` that are 1 (R86). -/
def gmul (a b : Byte) : Byte :=
  (List.range 8).foldl (fun acc i => if b.getLsbD i then acc ^^^ xtimes i a else acc) 0

/-- The inverse, 0 for 0, as `a^254 = a^2 * a^4 * ... * a^128` (R87). -/
def ginv (a : Byte) : Byte :=
  let a2 := gmul a a
  let a4 := gmul a2 a2
  let a8 := gmul a4 a4
  let a16 := gmul a8 a8
  let a32 := gmul a16 a16
  let a64 := gmul a32 a32
  let a128 := gmul a64 a64
  gmul a128 (gmul a64 (gmul a32 (gmul a16 (gmul a8 (gmul a4 a2)))))

/-! ### The S-box (R88, R89) -/

/-- Bit `i` of the affine map of R88, constant `0x63`. -/
def affBit (b : Byte) (i : Nat) : Bool :=
  b.getLsbD i ^^ b.getLsbD ((i + 4) % 8) ^^ b.getLsbD ((i + 5) % 8) ^^ b.getLsbD ((i + 6) % 8) ^^
    b.getLsbD ((i + 7) % 8) ^^ (0x63 : Byte).getLsbD i

/-- The affine map of R88. -/
def aff (b : Byte) : Byte :=
  (List.range 8).foldl (fun acc i => acc ||| ((BitVec.ofBool (affBit b i)).setWidth 8 <<< i)) 0

/-- The S-box by its formula (R88). -/
def sboxFormula (a : Byte) : Byte := aff (ginv a)

/-- The S-box table of R89: row `r` is the input's high digit, column 0 is the leftmost byte. -/
def sboxRows : List Word :=
  [0x637c777bf26b6fc53001672bfed7ab76,
   0xca82c97dfa5947f0add4a2af9ca472c0,
   0xb7fd9326363ff7cc34a5e5f171d83115,
   0x04c723c31896059a071280e2eb27b275,
   0x09832c1a1b6e5aa0523bd6b329e32f84,
   0x53d100ed20fcb15b6acbbe394a4c58cf,
   0xd0efaafb434d338545f9027f503c9fa8,
   0x51a3408f929d38f5bcb6da2110fff3d2,
   0xcd0c13ec5f974417c4a77e3d645d1973,
   0x60814fdc222a908846eeb814de5e0bdb,
   0xe0323a0a4906245cc2d3ac629195e479,
   0xe7c8376d8dd54ea96c56f4ea657aae08,
   0xba78252e1ca6b4c6e8dd741f4bbd8b8a,
   0x703eb5664803f60e613557b986c11d9e,
   0xe1f8981169d98e949b1e87e9ce5528df,
   0x8ca1890dbfe6426841992d0fb054bb16]

/-- `S(a)`, the S-box (R89). -/
def sbox (a : Byte) : Byte := byteOf (sboxRows.getD (a.toNat / 16) 0) (15 - a.toNat % 16)

/-- `SubWord(v)`: the S-box on each byte of a lane (R90). -/
def subWord (v : Lane) : Lane :=
  laneOfBytes (sbox (laneByte v 0)) (sbox (laneByte v 1)) (sbox (laneByte v 2)) (sbox (laneByte v 3))

/-! ### The four steps of a round (R91 to R94): byte `r + 4c` is row `r`, column `c` (R85) -/

/-- `SubBytes(s)` (R91). -/
def subBytes (s : Word) : Word := wordOfBytes fun k => sbox (byteOf s k)

/-- `ShiftRows(s)` (R92): row `r`, column `c` takes the byte of row `r`, column `(c + r) mod 4`. -/
def shiftRows (s : Word) : Word :=
  wordOfBytes fun k => byteOf s (k % 4 + 4 * ((k / 4 + k % 4) % 4))

/-- Row `r` of the mixed column `a0 a1 a2 a3` (R93). -/
def mixColumn (a0 a1 a2 a3 : Byte) : (r : Nat) → Byte
  | 0 => gmul a0 2 ^^^ gmul a1 3 ^^^ a2 ^^^ a3
  | 1 => a0 ^^^ gmul a1 2 ^^^ gmul a2 3 ^^^ a3
  | 2 => a0 ^^^ a1 ^^^ gmul a2 2 ^^^ gmul a3 3
  | _ => gmul a0 3 ^^^ a1 ^^^ a2 ^^^ gmul a3 2

/-- `MixColumns(s)` (R93). -/
def mixColumns (s : Word) : Word :=
  wordOfBytes fun k =>
    let c := k / 4
    mixColumn (byteOf s (4 * c)) (byteOf s (4 * c + 1)) (byteOf s (4 * c + 2)) (byteOf s (4 * c + 3)) (k % 4)

/-- `AddRoundKey(s, k)` (R94). -/
def addRoundKey (s k : Word) : Word := s ^^^ k

/-! ### The round functions and the cipher (R95 to R98) -/

/-- `Round(s, k)` (R96). -/
def round (s k : Word) : Word := addRoundKey (mixColumns (shiftRows (subBytes s))) k

/-- `FinalRound(s, k)`, without MixColumns (R97). -/
def finalRound (s k : Word) : Word := addRoundKey (shiftRows (subBytes s)) k

/-- Rounds `r, r + 1, .., r + m - 1` on a state block. -/
def rounds (rk : Nat → Word) : (r m : Nat) → Word → Word
  | _, 0, t => t
  | r, m + 1, t => rounds rk (r + 1) m (round t (rk r))

/-- `Cipher(nr, rk, s)` (R98): whitening, rounds 1 to `nr - 1`, final round `nr`. -/
def cipher (nr : Nat) (rk : Nat → Word) (s : Word) : Word :=
  finalRound (rounds rk 1 (nr - 1) (addRoundKey s (rk 0))) (rk nr)

end Sys2Proof.Machine
end

