-- ==== Sys2Proof/Machine/KeySchedule.lean ====
section
/-! DEFINITION. The key-schedule expander: EXP128 and EXP256 (41_key_schedule.md). -/

namespace Sys2Proof.Machine

/-- The round constants `RCON[1..10]` (R105). -/
def rconTable : List Byte := [0x01, 0x02, 0x04, 0x08, 0x10, 0x20, 0x40, 0x80, 0x1B, 0x36]

/-- `RCON[i]`, for `i` from 1 to 10 (R105); no rule uses another index. -/
def rcon (i : Nat) : Byte := rconTable.getD (i - 1) 0

/-- `Broadcast(v)` (R106). -/
def broadcast (v : Lane) : Word := wordOfLanes v v v v

/-- `Fold(k)` (R107). -/
def fold (k : Word) : Word :=
  let k1 := k ^^^ (k <<< 32)
  let k2 := k1 ^^^ (k1 <<< 32)
  k2 ^^^ (k2 <<< 32)

/-- `AssistRc(a, rc)` (R109). -/
def assistRc (a : Word) (rc : Byte) : Word :=
  broadcast (ror32 (subWord (laneOf a 3)) 8 ^^^ rc.setWidth 32)

/-- `AssistNoRc(a)` (R110). -/
def assistNoRc (a : Word) : Word := broadcast (subWord (laneOf a 3))

/-- `KeyStep(f, t)` (R111). -/
def keyStep (f t : Word) : Word := fold f ^^^ t

/-- `RK[i]` of EXP128 from `RK[i-1]` (R114). -/
def nextKey128 (prev : Word) (i : Nat) : Word := keyStep prev (assistRc prev (rcon i))

/-- `RK[i]` of EXP256 from `RK[i-2]` and `RK[i-1]` (R117). -/
def nextKey256 (prev2 prev : Word) (i : Nat) : Word :=
  if i % 2 = 0 then keyStep prev2 (assistRc prev (rcon (i / 2))) else keyStep prev2 (assistNoRc prev)

/-- The round-key RAM after EXP128 (R114): entries 0 to 10 are written, 11 to 14 kept (R24). -/
def expand128 (kw0 : Word) (rk : Vector Word 15) : Vector Word 15 :=
  (List.range' 1 10).foldl (fun rk i => rkSet rk i (nextKey128 (rk.getD (i - 1) 0) i)) (rkSet rk 0 kw0)

/-- The round-key RAM after EXP256 (R117): entries 0 to 14 are written. -/
def expand256 (kw0 kw1 : Word) (rk : Vector Word 15) : Vector Word 15 :=
  (List.range' 2 13).foldl (fun rk i => rkSet rk i (nextKey256 (rk.getD (i - 2) 0) (rk.getD (i - 1) 0) i))
    (rkSet (rkSet rk 0 kw0) 1 kw1)

/-- EXP128 (R114). -/
def execExp128 (kw0 : Word) (s : State) : Host.Outcome State Fault Refusal :=
  .next { s with rk := expand128 kw0 s.rk, nr := 10 }.respondOk

/-- EXP256 (R117). -/
def execExp256 (kw0 kw1 : Word) (s : State) : Host.Outcome State Fault Refusal :=
  .next { s with rk := expand256 kw0 kw1 s.rk, nr := 14 }.respondOk

end Sys2Proof.Machine
end

