-- ==== Sys2Proof/Machine/Operands.lean ====
section
/-! DEFINITION. The operands of the block commands: the buffer they name and the checks on it
(20_memory.md R42 to R47; 60_exceptions.md R184). -/

namespace Sys2Proof.Machine

/-- The address of block `i` of the buffer at `addr` (R42), a natural number (R47). -/
def blockAddr (addr i : Nat) : Nat := addr + Config.blockBytes * i

/-- The address just past the buffer of `n` blocks at `addr` (R42). -/
def bufferEnd (addr n : Nat) : Nat := addr + Config.blockBytes * n

/-- The byte address is in the region. -/
def Region.has (r : Region) (a : Nat) : Bool := decide (r.base ≤ a) && decide (a < r.base + r.size)

/-- The byte address is in `Buf` (R46). -/
def inBuf (buf : List Region) (a : Nat) : Bool := buf.any fun r => r.has a

/-- Every address of `[lo, hi)` is in one of the regions: what the first region leaves on its two
sides is in the others. -/
def covers : List Region → Nat → Nat → Bool
  | [], lo, hi => decide (hi ≤ lo)
  | r :: rs, lo, hi => covers rs lo (min hi r.base) && covers rs (max lo (r.base + r.size)) hi

/-- The buffer ends inside the address space and lies in `Buf` (R46, R47). -/
def bufferAdmitted (buf : List Region) (addr n : Nat) : Bool :=
  decide (bufferEnd addr n ≤ Config.addressSpace) && covers buf addr (bufferEnd addr n)

/-- The variant admits the address: `U = 1`, or the address is aligned (R44). -/
def alignmentAdmitted (u : Bool) (addr : Nat) : Bool := u || addr % Config.alignBytes == 0

/-- The checks of a block command on `n` blocks, in the order of R184; the first that fails decides. -/
def blockCheck (s : State) (u : Bool) (addr n : Nat) : Option FaultCode :=
  if !validContext s.nr then some .noContext
  else if n = 0 then none
  else if !alignmentAdmitted u addr then some .align
  else if !bufferAdmitted s.buf addr n then some .bounds
  else none

/-- What the memory port does in a block command that passes its checks, from the round count, the
round keys and the port (R127: both are read from the context at the start). -/
abbrev BlockBody := (nr : Nat) → (rk : Nat → Word) → Port → Port

/-- The port after a block command that passes its checks. -/
def blockPort (body : BlockBody) (s : State) : Port := body s.nr.toNat s.rkAt ⟨s.mem, []⟩

/-- A block command: checks first, then the accesses, then the response (R51, R52, R184). -/
def blockCommand (u : Bool) (addr n : Nat) (body : BlockBody) (s : State) : State :=
  match blockCheck s u addr n with
  | some c => raiseFault c s
  | none => { s with mem := (blockPort body s).mem }.respondOk

/-- The accesses a block command makes: none if a check fails (R43, R51). -/
def blockAccesses (u : Bool) (addr n : Nat) (body : BlockBody) (s : State) : List Access :=
  match blockCheck s u addr n with
  | some _ => []
  | none => (blockPort body s).log

end Sys2Proof.Machine
end

