-- ==== Sys2Proof/Machine/Pipeline.lean ====
section
/-! DEFINITION. The encryption pipeline: ENC1 and ENC4 (42_block_kernel.md). -/

namespace Sys2Proof.Machine

/-- The round unit on a state block in round `r` of `nr`: the last round bypasses MixColumns (R125). -/
def roundUnit (nr : Nat) (rk : Nat → Word) (r : Nat) (s : Word) : Word :=
  if r = nr then finalRound s (rk r) else round s (rk r)

/-- The operations that enter the round unit in ENC4, oldest first: round and lane, round-major (R131,
R133). -/
def issueOrder (nr : Nat) : List (Nat × Nat) :=
  (List.range' 1 nr).flatMap fun r => (List.range Config.nway).map fun j => (r, j)

/-- One operation of the round unit on the lane registers `ST[0..3]` (R131). -/
def issue (nr : Nat) (rk : Nat → Word) (st : Vector Word 4) (op : Nat × Nat) : Vector Word 4 :=
  st.setIfInBounds op.2 (roundUnit nr rk op.1 (st.getD op.2 0))

/-- The lane registers after the whole interleaved sequence: whitening of all four, then the rounds
in issue order (R131). -/
def encryptLanes (nr : Nat) (rk : Nat → Word) (st : Vector Word 4) : Vector Word 4 :=
  (issueOrder nr).foldl (issue nr rk) (st.map fun s => addRoundKey s (rk 0))

/-- `Kernel1(a)`, the body of ENC1 (R128): lane 0 only, no access for the idle lanes (R129). -/
def kernel1 (a nr : Nat) (rk : Nat → Word) (p : Port) : Port :=
  let (s, p) := p.readAt a
  p.writeAt a (cipher nr rk s)

/-- `Kernel4(a)`, the body of ENC4 (R131): read blocks 0 to 3, encrypt in lockstep, write blocks 0 to 3
(R53). -/
def kernel4 (a nr : Nat) (rk : Nat → Word) (p : Port) : Port :=
  let (s0, p) := p.readAt (blockAddr a 0)
  let (s1, p) := p.readAt (blockAddr a 1)
  let (s2, p) := p.readAt (blockAddr a 2)
  let (s3, p) := p.readAt (blockAddr a 3)
  let st := encryptLanes nr rk #v[s0, s1, s2, s3]
  let p := p.writeAt (blockAddr a 0) st[0]
  let p := p.writeAt (blockAddr a 1) st[1]
  let p := p.writeAt (blockAddr a 2) st[2]
  p.writeAt (blockAddr a 3) st[3]

/-- ENC1 (R128). -/
def execEnc1 (u : Bool) (addr : Nat) (s : State) : Host.Outcome State Fault Refusal :=
  .next (blockCommand u addr 1 (kernel1 addr) s)

/-- ENC4 (R131). -/
def execEnc4 (u : Bool) (addr : Nat) (s : State) : Host.Outcome State Fault Refusal :=
  .next (blockCommand u addr 4 (kernel4 addr) s)

end Sys2Proof.Machine
end

