-- ==== Sys2Proof/Machine/Sequencer.lean ====
section
/-! DEFINITION. The block sequencer for any block count: RUN (43_tail_safe_run.md). -/

namespace Sys2Proof.Machine

/-- The full groups `0 .. q-1`: each window goes through the 4-way pipeline (R145). -/
def runGroups (addr q nr : Nat) (rk : Nat → Word) (p : Port) : Port :=
  (List.range q).foldl (fun p g => kernel4 (addr + 64 * g) nr rk p) p

/-- The tail blocks `0 .. m-1` behind `q` full groups: each through the single-block path (R145). -/
def runTail (addr q m nr : Nat) (rk : Nat → Word) (p : Port) : Port :=
  (List.range m).foldl (fun p t => kernel1 (addr + 64 * q + 16 * t) nr rk p) p

/-- The body of RUN (R145): `n div 4` full groups, then `n mod 4` tail blocks. -/
def runBody (addr n nr : Nat) (rk : Nat → Word) (p : Port) : Port :=
  runTail addr (n / Config.nway) (n % Config.nway) nr rk (runGroups addr (n / Config.nway) nr rk p)

/-- RUN (R145, R146). -/
def execRun (u : Bool) (addr n : Nat) (s : State) : Host.Outcome State Fault Refusal :=
  .next (blockCommand u addr n (runBody addr n) s)

end Sys2Proof.Machine
end

