-- ==== Sys2Proof/Machine/Dispatch.lean ====
section
/-! DEFINITION. Which meaning each command has (30_encoding.md R64). -/

namespace Sys2Proof.Machine

def exec (i : Instr) (s : State) : Host.Outcome State Fault Refusal :=
  match i with
  | .exp128 kw0 => Sys2Proof.Machine.execExp128 kw0 s
  | .exp256 kw0 kw1 => Sys2Proof.Machine.execExp256 kw0 kw1 s
  | .enc1 u addr => Sys2Proof.Machine.execEnc1 u addr s
  | .enc4 u addr => Sys2Proof.Machine.execEnc4 u addr s
  | .run u addr n => Sys2Proof.Machine.execRun u addr n s
  | .dbl x => Sys2Proof.Machine.execDbl x s

end Sys2Proof.Machine
end

