-- ==== Sys2Proof/Machine/CoreMove.lean ====
section
/-! DEFINITION. How the core takes a command and how the two agents take turns (30_encoding.md R61,
R71, R74; 60_exceptions.md R187; 70_reset_and_hazards.md R205, R206, R208). -/

namespace Sys2Proof.Machine

/-- A move of the core. A faulted core makes none (R187). Otherwise the words already taken and those
in the channel are read as one command: a complete command is executed; an illegal header is taken
alone and faults (R74); of an incomplete command the words there are are taken, and with none to
take the core waits (R208; log 12). -/
def coreMove (s : State) : Host.Outcome State Fault Refusal :=
  if s.faulted then .fault .halted
  else
    match decode (s.frame ++ s.cmd) with
    | .ok (i, rest) => exec i { s with frame := [], cmd := rest }
    | .error .noHeader => .fault .awaitingHeader
    | .error (.illegalHeader _) =>
      .next (raiseFault .illegalCmd { s with frame := [], cmd := (s.frame ++ s.cmd).drop 1 })
    | .error (.payloadMissing _) =>
      if s.cmd = [] then .fault .awaitingPayload
      else .next { s with frame := s.frame ++ s.cmd, cmd := [] }

/-- Reset strikes while the core is at its next command, whose move would have led from `s` to `t`
(R206; log 10). Either only some of its words had been taken, which are discarded (R205), or it had
begun to execute: every byte of memory and every round-key entry held its old or its new value when
reset struck. No response is sent. -/
def abandonMove (s t : State) : State :=
  let n := s.cmd.length - t.cmd.length
  let k := Config.abandonedWordsTaken s.draws
  if k < n then { s with cmd := s.cmd.drop k }.applyReset
  else
    { s with
      cmd := t.cmd
      rk := mixKeys (Config.abandonedEntryIsNew s.draws) s.rk t.rk
      mem := mixMemory (Config.abandonedByteIsNew s.draws) s.mem t.mem }.applyReset

/-- A move of the host on the machine (R7, R60, R205). -/
def hostMove (a : HostAction) (s : State) : State :=
  match a with
  | .sendWord w => { s with cmd := s.cmd ++ [w] }
  | .takeWord => { s with resp := s.resp.drop 1 }
  | .writeByte addr b => { s with mem := writeByte s.mem addr.toNat b }
  | .setBuf regions => { s with buf := regions }
  | .reset => s.applyReset
  | .resetInCommand =>
    match coreMove s with
    | .next t => abandonMove s t
    | _ => s.applyReset
  | .coreTurn =>
    match coreMove s with
    | .next t => t
    | _ => s

/-- The next move: the host's if it has one, else the core's (log 7). -/
def nextMove (s : State) : Host.Outcome State Fault Refusal :=
  match s.host with
  | [] => coreMove s
  | a :: rest => .next (hostMove a { s with host := rest })

/-- Put the words of one command at the head of the command stream, with the core at a header
boundary and to move (log 6). -/
def placeCommand (s : State) (ws : List Lane) : State :=
  { s with frame := [], cmd := ws, host := [] }

end Sys2Proof.Machine
end

