-- ==== Sys2Proof/Machine/Step.lean ====
section
/-! DEFINITION. One step of the machine, and a command placed where the next step takes it. -/

namespace Sys2Proof.Machine

/-- One step: one move of the host, or one move of the core (a whole command, R61). -/
def step (s : State) : Host.Outcome State Fault Refusal := nextMove s

/-- The command of a table word as the next words of the command channel (log 6). -/
def State.withFetchWord (s : State) (nbits w : Nat) : State := placeCommand s (tableWords nbits w)

end Sys2Proof.Machine
end

