-- ==== Sys2Proof/Machine/Assembler.lean ====
section
/-! DEFINITION. The assembler's one line per command and the pseudo-instruction EXPAND
(30_encoding.md R76, R77). No rule of the machine depends on this file. -/

namespace Sys2Proof.Machine

/-! ### Printing -/

/-- Hexadecimal digits, most significant first. -/
def hexChars : List Char := "0123456789ABCDEF".toList

/-- The last `digits` hexadecimal digits of `v`, most significant first. -/
def hexOf (digits v : Nat) : List Char :=
  (List.range digits).map fun i => hexChars.getD (v / 16 ^ (digits - 1 - i) % 16) '?'

/-- The 16 bytes of a key word in order, two digits a byte, byte 0 first (R76). -/
def keyHex (W : Word) : String := String.ofList ((wordToBytes W).flatMap fun b => hexOf 2 b.toNat)

/-- A 32-bit operand as a hexadecimal number (R76; log 22). -/
def numberHex (v : Nat) : String := "0x" ++ String.ofList (hexOf 8 v)

/-- The suffix of the unaligned variant (R63, R76). -/
def variantSuffix (u : Bool) : String := if u then ".U" else ""

/-- The assembler line of a command (R76). -/
def printInstr : Instr → String
  | .exp128 kw0 => "EXP128 " ++ keyHex kw0
  | .exp256 kw0 kw1 => "EXP256 " ++ keyHex kw0 ++ keyHex kw1
  | .enc1 u addr => "ENC1" ++ variantSuffix u ++ " " ++ numberHex addr
  | .enc4 u addr => "ENC4" ++ variantSuffix u ++ " " ++ numberHex addr
  | .run u addr n => "RUN" ++ variantSuffix u ++ " " ++ numberHex addr ++ ", " ++ numberHex n
  | .dbl x => "DBL 0x" ++ String.ofList (hexOf 32 x.toNat)

/-! ### Assembling -/

/-- The value of a hexadecimal digit. DESIGN CHOICE (log 23): either case is read. -/
def hexValue (c : Char) : Option Nat := hexChars.idxOf? c.toUpper

/-- A non-empty digit string in a base up to 16. -/
def digitsIn (base : Nat) (cs : List Char) : Option Nat :=
  if cs = [] then none
  else cs.foldlM (fun acc c => (hexValue c).bind fun d => if d < base then some (acc * base + d) else none) 0

/-- An unsigned number that fits 32 bits, decimal or `0x` hexadecimal (R76). -/
def numberOperand (cs : List Char) : Option Nat :=
  let v := match cs with
    | '0' :: 'x' :: ds => digitsIn 16 ds
    | ds => digitsIn 10 ds
  v.filter fun n => decide (n < 2 ^ 32)

/-- A byte string, two hexadecimal digits a byte, byte 0 first (R76). -/
def byteString : List Char → Option (List Byte)
  | [] => some []
  | [_] => none
  | h :: l :: cs =>
    match digitsIn 16 [h, l], byteString cs with
    | some v, some bs => some (BitVec.ofNat 8 v :: bs)
    | _, _ => none

/-- The command that expands a key of 16 or 32 bytes; a key of another length is an assembly error
(R77). -/
def expandKey (key : List Byte) : Option Instr :=
  if key.length = 16 then some (.exp128 (bytesToWord key))
  else if key.length = 32 then some (.exp256 (bytesToWord (key.take 16)) (bytesToWord (key.drop 16)))
  else none

/-- The command that expands a key of exactly `n` bytes. -/
def expandOfLength (n : Nat) (cs : List Char) : Option Instr :=
  ((byteString cs).filter fun key => key.length == n).bind expandKey

/-- A 128-bit number written `0x` and 32 hexadecimal digits, most significant first (R76). -/
def fieldOperand : List Char → Option Word
  | '0' :: 'x' :: ds => if ds.length = 32 then (digitsIn 16 ds).map (BitVec.ofNat 128) else none
  | _ => none

/-- The pieces of a line between the separators `c`. -/
def splitAtChar (c : Char) : List Char → List (List Char)
  | [] => [[]]
  | x :: xs =>
    if x = c then [] :: splitAtChar c xs
    else match splitAtChar c xs with
      | [] => [[x]]
      | w :: ws => (x :: w) :: ws

/-- A command from its mnemonic and operands (R76, R77). -/
def assembleOp (mnemonic : String) (operands : List (List Char)) : Option Instr :=
  match mnemonic, operands with
  | "EXP128", [k] => expandOfLength 16 k
  | "EXP256", [k] => expandOfLength 32 k
  | "EXPAND", [k] => (byteString k).bind expandKey
  | "ENC1", [a] => (numberOperand a).map (.enc1 false)
  | "ENC1.U", [a] => (numberOperand a).map (.enc1 true)
  | "ENC4", [a] => (numberOperand a).map (.enc4 false)
  | "ENC4.U", [a] => (numberOperand a).map (.enc4 true)
  | "RUN", [a, n] => (numberOperand a).bind fun a => (numberOperand n).map (.run false a)
  | "RUN.U", [a, n] => (numberOperand a).bind fun a => (numberOperand n).map (.run true a)
  | "DBL", [x] => (fieldOperand x).map .dbl
  | _, _ => none

/-- A command from its assembler line: the mnemonic, then operands separated by commas (R76). DESIGN
CHOICE (log 23): R76 says nothing of blanks; leading blanks are skipped, the mnemonic ends at the first
blank after it, and every blank after that is dropped, so that the pieces of an operand are joined:
`ENC1 0x10 00` is ENC1 at 0x1000. -/
def assemble (line : String) : Option Instr :=
  match (splitAtChar ' ' line.toList).filter (fun w => w != []) with
  | [] => none
  | m :: rest => assembleOp (String.ofList m) (splitAtChar ',' rest.flatten)

end Sys2Proof.Machine
end

