-- ==== Sys2Proof/Machine/Trace.lean ====
section
/-! DEFINITION. The memory accesses of a command, in the order the core makes them (20_memory.md R43,
R53; 43_tail_safe_run.md R152; 70_reset_and_hazards.md R218; log 18). -/

namespace Sys2Proof.Machine

/-- The accesses the memory port makes when the command runs. EXP128, EXP256 and DBL make none (R40). -/
def accesses (i : Instr) (s : State) : List Access :=
  match i with
  | .exp128 _ => []
  | .exp256 _ _ => []
  | .enc1 u addr => blockAccesses u addr 1 (kernel1 addr) s
  | .enc4 u addr => blockAccesses u addr 4 (kernel4 addr) s
  | .run u addr n => blockAccesses u addr n (runBody addr n) s
  | .dbl _ => []

/-- Blocks `i0 .. i0+m-1` of the buffer at `addr`, each access of the given kind, ascending. -/
def accessRun (kind : AccessKind) (addr i0 m : Nat) : List Access :=
  (List.range m).map fun i => ⟨kind, blockAddr addr (i0 + i)⟩

/-- The accesses of the reference order of R53 on a window of four blocks from block `i0`: read 0 to 3,
then write 0 to 3. -/
def windowAccesses (addr i0 : Nat) : List Access := accessRun .read addr i0 4 ++ accessRun .write addr i0 4

/-- The accesses of the reference order on one tail block `i`: read, then write. -/
def tailAccesses (addr i : Nat) : List Access := [⟨.read, blockAddr addr i⟩, ⟨.write, blockAddr addr i⟩]

/-- The reference order of R53 on a buffer of `n` blocks: full groups ascending, then tail blocks
ascending. -/
def referenceAccesses (addr n : Nat) : List Access :=
  (List.range (n / 4)).flatMap (fun g => windowAccesses addr (4 * g)) ++
    (List.range (n % 4)).flatMap (fun t => tailAccesses addr (4 * (n / 4) + t))

end Sys2Proof.Machine
end

