-- ==== Sys2Proof/Safety.lean ====
section
/-! DEFINITION. What claims are stated in terms of: the invariant of the machine, and runs of
complete commands (10_state.md R26, R28, R29; 70_reset_and_hazards.md R208). -/

namespace Sys2Proof.Machine

/-! ### The invariant -/

/-- Entries 0 to 10 are the round keys EXP128 computes from entry 0 (R26, R114). -/
abbrev built128 (rk : Nat → Word) : Prop := ∀ i ∈ List.range' 1 10, rk i = nextKey128 (rk (i - 1)) i

/-- Entries 0 to 14 are the round keys EXP256 computes from entries 0 and 1 (R26, R117). -/
abbrev built256 (rk : Nat → Word) : Prop :=
  ∀ i ∈ List.range' 2 13, rk i = nextKey256 (rk (i - 2)) (rk (i - 1)) i

/-- The context invariant (R26): no context, or the round keys of a 128-bit key, or those of a
256-bit key. -/
abbrev contextSound (s : State) : Prop :=
  s.nr = 0 ∨ (s.nr = 10 ∧ built128 s.rkAt) ∨ (s.nr = 14 ∧ built256 s.rkAt)

/-- The partly received words are none, or a legal header with fewer payload words than its opcode
calls for (R61, R71). -/
def frameOpen : List Lane → Bool
  | [] => true
  | h :: ps =>
    match selectOpcode h with
    | some op => decide (ps.length < payloadWords op)
    | none => false

/-- What every step keeps: the memory is in its canonical form, the context is sound (R26, R28), `FLT`
holds a code of R176 (R29), and the framing is that of one command (R61). -/
structure Inv (s : State) : Prop where
  memory  : Memory.wf s.mem = true
  context : contextSound s
  fault   : s.flt.toNat ≤ 4
  framing : frameOpen s.frame = true

/-! ### The operands and the conditions of the block commands -/

/-- Variant, address and block count of a block command (R42); none for the other commands. -/
def blockOperands : Instr → Option (Bool × Nat × Nat)
  | .exp128 _ => none
  | .exp256 _ _ => none
  | .enc1 u addr => some (u, addr, 1)
  | .enc4 u addr => some (u, addr, 4)
  | .run u addr n => some (u, addr, n)
  | .dbl _ => none

/-- The context is valid (R15, R126). -/
abbrev hasContext (s : State) : Prop := s.nr = 10 ∨ s.nr = 14

/-- The variant admits the address (R44). -/
abbrev isAligned (u : Bool) (addr : Nat) : Prop := u = true ∨ addr % 16 = 0

/-- The buffer ends inside the address space and every byte of it is in `Buf` (R46, R47). -/
abbrev isInBounds (s : State) (addr n : Nat) : Prop :=
  addr + 16 * n ≤ 2 ^ 32 ∧ ∀ a, addr ≤ a → a < addr + 16 * n → inBuf s.buf a = true

/-- A block command on `n` blocks at `addr` passes its checks (R184). -/
abbrev isAdmitted (s : State) (u : Bool) (addr n : Nat) : Prop :=
  hasContext s ∧ (n = 0 ∨ (isAligned u addr ∧ isInBounds s addr n))

/-! ### What a command leaves alone -/

/-- The cipher context is unchanged (R22). -/
abbrev sameContext (s t : State) : Prop := t.rk = s.rk ∧ t.nr = s.nr

/-- Framing, command channel, `Buf` and the host's plans are unchanged. -/
abbrev sameSurroundings (s t : State) : Prop :=
  t.frame = s.frame ∧ t.cmd = s.cmd ∧ t.buf = s.buf ∧ t.host = s.host ∧ t.draws = s.draws

/-- Two commands that differ at most in their key or data operand (R218): same header, same `ADDR` and
`N`. -/
def sameHeader : Instr → Instr → Bool
  | .exp128 _, .exp128 _ => true
  | .exp256 _ _, .exp256 _ _ => true
  | .dbl _, .dbl _ => true
  | i, j => i == j

/-! ### Runs of complete commands (R208) -/

/-- The complete commands of a list, one after another; a faulted core executes none (R187). -/
def runCommands : List Instr → State → Host.Outcome State Fault Refusal
  | [], s => .next s
  | i :: is, s =>
    if s.faulted then .fault .halted
    else
      match exec i s with
      | .next t => runCommands is t
      | .fault r => .fault r
      | .refused r => .refused r

/-- The run has ended well: it came to its end with `FLT = 0` (R208). -/
def endedWell : Host.Outcome State Fault Refusal → Bool
  | .next s => s.flt == 0
  | .fault _ => false
  | .refused _ => false

end Sys2Proof.Machine
end

