-- ==== Sys2Proof/Certificates/Slice0/Obligations.lean ====
section
/-! DEFINITION. The statements for the provers: what the numbered rules of the spec say the core does.
Where a clause is the model's own choice, the docstring names the log entry. -/

open Sys2Proof Sys2Proof.Machine

/-! ### Encoding (30_encoding.md) -/

/-- Decoding the words of a well-formed command, whatever follows them, gives the command back with
every operand, and leaves what follows (R65 to R71). -/
def Obligations.DecodeOfEncode : Prop :=
  ∀ (i : Instr) (rest : List Lane), WellFormed i = true → decode (encode i ++ rest) = .ok (i, rest)

/-- What the decoder reads is well-formed, and its words are exactly the words taken: no two word
sequences are one command (R64 to R71). -/
def Obligations.EncodeOfDecode : Prop :=
  ∀ (ws rest : List Lane) (i : Instr), decode ws = .ok (i, rest) →
    WellFormed i = true ∧ encode i ++ rest = ws

/-- R74: which headers are illegal, and what the core does on one: it takes the header alone, raises
ILLEGAL_CMD and answers with status 1. -/
def Obligations.IllegalHeaders : Prop :=
  (∀ (h : Lane) (ws : List Lane), decode (h :: ws) = .error (.illegalHeader h) ↔
    ¬ (1 ≤ (headerOp h).toNat ∧ (headerOp h).toNat ≤ 6) ∨ headerRsv h ≠ 0 ∨
      (headerU h = true ∧ (headerOp h = 1 ∨ headerOp h = 2 ∨ headerOp h = 6))) ∧
  (∀ (s : State) (h : Lane) (ws : List Lane), s.host = [] → s.flt = 0 → s.frame = [] → s.cmd = h :: ws →
    decode (h :: ws) = .error (.illegalHeader h) →
      step s = .next { s with cmd := ws, flt := 1, resp := s.resp ++ [1] }) ∧
  (∀ ws, decode (0x00000000 :: ws) = .error (.illegalHeader 0x00000000)) ∧
  (∀ ws, decode (0xFFFFFFFF :: ws) = .error (.illegalHeader 0xFFFFFFFF))

/-- The rows of the opcode table are mutually exclusive (R78). -/
def Obligations.OpcodeRowsExclusive : Prop :=
  ∀ (h : Lane), ∀ r ∈ opcodeTable, ∀ r' ∈ opcodeTable,
    h &&& r.mask = r.value → h &&& r'.mask = r'.value → r = r'

/-- R65 and R66: the key operand of EXP128 and the two of EXP256, by lanes and by bytes. -/
def Obligations.KeyOperands : Prop :=
  (∀ (k : Fin 4 → Lane) (rest : List Lane), ∃ kw0,
    decode (0x00000001 :: ((List.ofFn k) ++ rest)) = .ok (.exp128 kw0, rest) ∧
    (∀ j : Fin 4, laneOf kw0 j = k j) ∧
    (∀ b, (hb : b < 16) → byteOf kw0 b = laneByte (k ⟨b / 4, by omega⟩) (b % 4))) ∧
  (∀ (k : Fin 8 → Lane) (rest : List Lane), ∃ kw0 kw1,
    decode (0x00000002 :: ((List.ofFn k) ++ rest)) = .ok (.exp256 kw0 kw1, rest) ∧
    (∀ j, (hj : j < 4) → laneOf kw0 j = k ⟨j, by omega⟩ ∧ laneOf kw1 j = k ⟨j + 4, by omega⟩) ∧
    (∀ b, (hb : b < 16) → byteOf kw0 b = laneByte (k ⟨b / 4, by omega⟩) (b % 4) ∧
      byteOf kw1 b = laneByte (k ⟨b / 4 + 4, by omega⟩) (b % 4)))

/-- R67 and R68: the headers of the block commands in both variants, `ADDR` and `N` as unsigned numbers,
every value of them legal. -/
def Obligations.AddressAndCountOperands : Prop :=
  ∀ (addr n : Lane) (rest : List Lane),
    decode (0x00000003 :: addr :: rest) = .ok (.enc1 false addr.toNat, rest) ∧
    decode (0x00000103 :: addr :: rest) = .ok (.enc1 true addr.toNat, rest) ∧
    decode (0x00000004 :: addr :: rest) = .ok (.enc4 false addr.toNat, rest) ∧
    decode (0x00000104 :: addr :: rest) = .ok (.enc4 true addr.toNat, rest) ∧
    decode (0x00000005 :: addr :: n :: rest) = .ok (.run false addr.toNat n.toNat, rest) ∧
    decode (0x00000105 :: addr :: n :: rest) = .ok (.run true addr.toNat n.toNat, rest)

/-- R69: the operand of DBL by lanes, its top and bottom bits, and, for 16 bytes laid out as R69 says,
its bytes. -/
def Obligations.FieldOperand : Prop :=
  ∀ (x : Fin 4 → Lane) (rest : List Lane), ∃ v,
    decode (0x00000006 :: ((List.ofFn x) ++ rest)) = .ok (.dbl v, rest) ∧
    (∀ j : Fin 4, laneOf v j = x j) ∧ v.getLsbD 127 = (x 3).getLsbD 31 ∧ v.getLsbD 0 = (x 0).getLsbD 0 ∧
    (∀ b : Nat → Byte, (∀ j : Fin 4, x j = laneOfBytes (b (4 * j)) (b (4 * j + 1)) (b (4 * j + 2)) (b (4 * j + 3))) →
      v = wordOfBytes b)

/-- Command words of 95_test_vectors.md decode to the commands they stand for there. -/
def Obligations.SampleCommandWords : Prop :=
  decode [0x00000001, 0x16157E2B, 0xA6D2AE28, 0x8815F7AB, 0x3C4FCF09] =
    .ok (.exp128 0x3C4FCF098815F7ABA6D2AE2816157E2B, []) ∧
  decode [0x00000003, 0x00001000] = .ok (.enc1 false 0x1000, []) ∧
  decode [0x00000104, 0x00001001] = .ok (.enc4 true 0x1001, []) ∧
  decode [0x00000005, 0x00002000, 0x00000007] = .ok (.run false 0x2000 7, []) ∧
  decode [0x00000006, 0x00000001, 0x00000000, 0x00000000, 0x80000000] =
    .ok (.dbl 0x80000000000000000000000000000001, []) ∧
  decode [0x00000106] = .error (.illegalHeader 0x00000106)

/-- R77: the pseudo-instruction EXPAND is EXP128 on 16 key bytes, EXP256 on 32, and an assembly error on
any other length. -/
def Obligations.ExpandByKeyLength : Prop :=
  ∀ key : List Byte,
    (key.length = 16 → expandKey key = some (.exp128 (bytesToWord key))) ∧
    (key.length = 32 →
      expandKey key = some (.exp256 (bytesToWord (key.take 16)) (bytesToWord (key.drop 16)))) ∧
    (key.length ≠ 16 → key.length ≠ 32 → expandKey key = none)

/-! ### Taking commands (30_encoding.md R61; 70_reset_and_hazards.md R208) -/

/-- When the words taken and the words in the channel begin with a well-formed command, the core's move
executes exactly that command, at a header boundary and with the words after it left in the channel;
so does a step that gives the core its turn. -/
def Obligations.StepRunsTheDecodedCommand : Prop :=
  ∀ (s : State) (i : Instr) (rest : List Lane), s.flt = 0 → WellFormed i = true →
    decode (s.frame ++ s.cmd) = .ok (i, rest) →
      (s.host = [] → step s = exec i { s with frame := [], cmd := rest }) ∧
      (∀ hs, s.host = .coreTurn :: hs → step s = exec i { s with frame := [], cmd := rest, host := hs })

/-- When and in how many portions the words of a command arrive makes no difference: the core takes an
incomplete portion without any other effect, and with the rest it does what it would have done with
all of them at once. That it takes the whole portion in one move is the model's choice (log 12). -/
def Obligations.FramingIgnoresArrival : Prop :=
  ∀ (s : State) (a b : List Lane) (op : Opcode), s.host = [] → s.flt = 0 → a ≠ [] → b ≠ [] →
    decode (s.frame ++ a) = .error (.payloadMissing op) →
      step { s with cmd := a } = .next { s with frame := s.frame ++ a, cmd := [] } ∧
      step { s with frame := s.frame ++ a, cmd := b } = step { s with cmd := a ++ b }

/-- A core with no words to take waits: at a header boundary for a header, inside a command for its
missing payload (R193, R208). That a waiting core has no step is the model's rendering (log 12). -/
def Obligations.WaitingCoreHasNoStep : Prop :=
  ∀ (s : State), s.host = [] → s.flt = 0 → s.cmd = [] →
    (s.frame = [] → step s = .fault .awaitingHeader) ∧
    (s.frame ≠ [] → frameOpen s.frame = true → step s = .fault .awaitingPayload)

/-! ### The AES primitives (40_aes_primitives.md) -/

/-- R86: multiplication by 1, 2 and 3 in the byte field, and its worked values. -/
def Obligations.ByteFieldProducts : Prop :=
  (∀ a : Byte, gmul a 1 = a ∧ gmul a 2 = xtime a ∧ gmul a 3 = xtime a ^^^ a) ∧
  xtime 0x57 = 0xAE ∧ xtime 0xAE = 0x47 ∧ xtime 0x47 = 0x8E ∧ xtime 0x8E = 0x07 ∧ xtime 0x80 = 0x1B ∧
  xtime 0xFF = 0xE5 ∧ xtime 0x00 = 0x00 ∧ gmul 0x57 0x83 = 0xC1 ∧ gmul 0x57 0x13 = 0xFE

/-- R87 and R88: the field inverse, the affine map, the S-box as a formula and as the table, its
bijectivity, and that it has no fixed point. -/
def Obligations.SboxIsAffineInverse : Prop :=
  ginv 0 = 0 ∧ (∀ a : Byte, a ≠ 0 → gmul a (ginv a) = 1) ∧
  (∀ (b : Byte), ∀ i < 8, (aff b).getLsbD i =
    (b.getLsbD i ^^ b.getLsbD ((i + 4) % 8) ^^ b.getLsbD ((i + 5) % 8) ^^ b.getLsbD ((i + 6) % 8) ^^
      b.getLsbD ((i + 7) % 8) ^^ (0x63 : Byte).getLsbD i)) ∧
  (∀ a : Byte, sbox a = aff (ginv a)) ∧ Function.Bijective sbox ∧ ∀ a : Byte, sbox a ≠ a

/-- R91 and R92: SubBytes and ShiftRows byte by byte, their worked values, and that they commute. -/
def Obligations.SubBytesAndShiftRows : Prop :=
  (∀ (s : Word), ∀ k < 16, byteOf (subBytes s) k = sbox (byteOf s k)) ∧
  (∀ (s : Word), ∀ r < 4, ∀ c < 4, byteOf (shiftRows s) (r + 4 * c) = byteOf s (r + 4 * ((c + r) % 4))) ∧
  (∀ (s : Word), wordToBytes (shiftRows s) =
    [0, 5, 10, 15, 4, 9, 14, 3, 8, 13, 2, 7, 12, 1, 6, 11].map (byteOf s)) ∧
  (∀ s : Word, shiftRows (subBytes s) = subBytes (shiftRows s)) ∧
  subBytes 0x0F0E0D0C0B0A09080706050403020100 = 0x76ABD7FE2B670130C56F6BF27B777C63 ∧
  shiftRows 0x0F0E0D0C0B0A09080706050403020100 = 0x0B06010C07020D08030E09040F0A0500

/-- R93: MixColumns by bytes, with its worked columns. -/
def Obligations.MixColumnsByColumn : Prop :=
  (∀ (s : Word), ∀ c < 4,
    let a0 := byteOf s (4 * c)
    let a1 := byteOf s (4 * c + 1)
    let a2 := byteOf s (4 * c + 2)
    let a3 := byteOf s (4 * c + 3)
    byteOf (mixColumns s) (4 * c) = gmul a0 2 ^^^ gmul a1 3 ^^^ a2 ^^^ a3 ∧
    byteOf (mixColumns s) (4 * c + 1) = a0 ^^^ gmul a1 2 ^^^ gmul a2 3 ^^^ a3 ∧
    byteOf (mixColumns s) (4 * c + 2) = a0 ^^^ a1 ^^^ gmul a2 2 ^^^ gmul a3 3 ∧
    byteOf (mixColumns s) (4 * c + 3) = gmul a0 3 ^^^ a1 ^^^ a2 ^^^ gmul a3 2) ∧
  mixColumns 0xC6C6C6C6010101015C220AF2455313DB = 0xC6C6C6C6010101019D58DC9FBCA14D8E ∧
  (List.range 4).map (byteOf (mixColumns 0x305DBFD4)) = [0x04, 0x66, 0x81, 0xE5]

/-- R96, R97 and the loop of R98: a round and the final round as compositions of the four steps and byte
by byte from the S-box, `gmul` and the round key; and `Cipher` as whitening, rounds 1 to `nr - 1`,
and the final round, on any sequence of states that follows them. -/
def Obligations.RoundsAndCipher : Prop :=
  (∀ s k : Word, Machine.round s k = mixColumns (shiftRows (subBytes s)) ^^^ k ∧
    finalRound s k = shiftRows (subBytes s) ^^^ k) ∧
  (∀ (s k : Word), ∀ c < 4,
    let a (r : Nat) : Byte := sbox (byteOf s (r + 4 * ((c + r) % 4)))
    byteOf (Machine.round s k) (4 * c) = gmul (a 0) 2 ^^^ gmul (a 1) 3 ^^^ a 2 ^^^ a 3 ^^^ byteOf k (4 * c) ∧
    byteOf (Machine.round s k) (4 * c + 1) = a 0 ^^^ gmul (a 1) 2 ^^^ gmul (a 2) 3 ^^^ a 3 ^^^ byteOf k (4 * c + 1) ∧
    byteOf (Machine.round s k) (4 * c + 2) = a 0 ^^^ a 1 ^^^ gmul (a 2) 2 ^^^ gmul (a 3) 3 ^^^ byteOf k (4 * c + 2) ∧
    byteOf (Machine.round s k) (4 * c + 3) = gmul (a 0) 3 ^^^ a 1 ^^^ a 2 ^^^ gmul (a 3) 2 ^^^ byteOf k (4 * c + 3) ∧
    ∀ r < 4, byteOf (finalRound s k) (4 * c + r) = a r ^^^ byteOf k (4 * c + r)) ∧
  (∀ (nr : Nat) (rk x : Nat → Word) (s : Word), 1 ≤ nr → x 0 = s ^^^ rk 0 →
    (∀ r, 1 ≤ r → r < nr → x r = Machine.round (x (r - 1)) (rk r)) →
      cipher nr rk s = finalRound (x (nr - 1)) (rk nr))

/-- R99: for a fixed round count and fixed round keys the cipher is a bijection on blocks. -/
def Obligations.CipherIsBijection : Prop :=
  ∀ (nr : Nat) (rk : Nat → Word), Function.Bijective (cipher nr rk)

/-! ### The key schedule (41_key_schedule.md) -/

/-- R108: lane `j` of a fold is the XOR of lanes 0 to `j`; the worked value. -/
def Obligations.FoldIsPrefixXor : Prop :=
  (∀ k : Word,
    laneOf (fold k) 0 = laneOf k 0 ∧
    laneOf (fold k) 1 = laneOf k 0 ^^^ laneOf k 1 ∧
    laneOf (fold k) 2 = laneOf k 0 ^^^ laneOf k 1 ^^^ laneOf k 2 ∧
    laneOf (fold k) 3 = laneOf k 0 ^^^ laneOf k 1 ^^^ laneOf k 2 ^^^ laneOf k 3) ∧
  fold 0x3C4FCF098815F7ABA6D2AE2816157E2B = 0x049DE8A138D227A8B0C7D00316157E2B

/-- R105: the ten round constants, each `xtime` of the one before. -/
def Obligations.RoundConstants : Prop :=
  (List.range' 1 10).map rcon = [0x01, 0x02, 0x04, 0x08, 0x10, 0x20, 0x40, 0x80, 0x1B, 0x36] ∧
  ∀ i < 9, rcon (i + 2) = xtime (rcon (i + 1))

/-- R109 and R110: the assist values in every lane, by the bytes of the high lane of the source, that
substitution and rotation commute, and the worked values. -/
def Obligations.AssistValues : Prop :=
  (∀ (a : Word) (rc : Byte), ∀ j < 4,
    laneOf (assistRc a rc) j = ror32 (subWord (laneOf a 3)) 8 ^^^ rc.setWidth 32 ∧
    laneByte (laneOf (assistRc a rc) j) 0 = sbox (byteOf a 13) ^^^ rc ∧
    laneByte (laneOf (assistRc a rc) j) 1 = sbox (byteOf a 14) ∧
    laneByte (laneOf (assistRc a rc) j) 2 = sbox (byteOf a 15) ∧
    laneByte (laneOf (assistRc a rc) j) 3 = sbox (byteOf a 12)) ∧
  (∀ (a : Word), ∀ j < 4,
    laneOf (assistNoRc a) j = subWord (laneOf a 3) ∧
    ∀ b < 4, laneByte (laneOf (assistNoRc a) j) b = sbox (byteOf a (12 + b))) ∧
  (∀ v : Lane, ror32 (subWord v) 8 = subWord (ror32 v 8)) ∧
  (∀ a : Word, laneOf a 3 = 0x3C4FCF09 → assistRc a 0x01 = 0x01EB848B01EB848B01EB848B01EB848B) ∧
  subWord 0x3C4FCF09 = 0xEB848A01 ∧ ror32 0xEB848A01 8 = 0x01EB848A ∧
  (∀ a : Word, laneOf a 3 = 0xDEFC6720 → assistNoRc a = 0x1DB085B71DB085B71DB085B71DB085B7)

/-- EXP128 completes in every state: the round keys of R114 in entries 0 to 10, entries 11 to 14 kept
(R24), `NR` 10, status 0, and nothing else changed. -/
def Obligations.Exp128Result : Prop :=
  ∀ (kw0 : Word) (s : State), ∃ t, exec (.exp128 kw0) s = .next t ∧
    t.rkAt 0 = kw0 ∧
    (∀ i, 1 ≤ i → i ≤ 10 → t.rkAt i = keyStep (t.rkAt (i - 1)) (assistRc (t.rkAt (i - 1)) (rcon i))) ∧
    (∀ i, 11 ≤ i → i ≤ 14 → t.rkAt i = s.rkAt i) ∧
    t.nr = 10 ∧ t.resp = s.resp ++ [0] ∧
    t.flt = s.flt ∧ (∀ a, readByte t.mem a = readByte s.mem a) ∧ sameSurroundings s t

/-- EXP256 completes in every state: the round keys of R117 in entries 0 to 14, `NR` 14, status 0, and
nothing else changed. -/
def Obligations.Exp256Result : Prop :=
  ∀ (kw0 kw1 : Word) (s : State), ∃ t, exec (.exp256 kw0 kw1) s = .next t ∧
    t.rkAt 0 = kw0 ∧ t.rkAt 1 = kw1 ∧
    (∀ i, 2 ≤ i → i ≤ 14 → i % 2 = 0 →
      t.rkAt i = keyStep (t.rkAt (i - 2)) (assistRc (t.rkAt (i - 1)) (rcon (i / 2)))) ∧
    (∀ i, 2 ≤ i → i ≤ 14 → i % 2 = 1 →
      t.rkAt i = keyStep (t.rkAt (i - 2)) (assistNoRc (t.rkAt (i - 1)))) ∧
    t.nr = 14 ∧ t.resp = s.resp ++ [0] ∧
    t.flt = s.flt ∧ (∀ a, readByte t.mem a = readByte s.mem a) ∧ sameSurroundings s t

/-- R112: the round keys the two commands compute are exactly what the AES recurrence on lanes
determines: a lane sequence that starts with the key's lanes satisfies the recurrence if and only if
it is the lanes of the round keys. -/
def Obligations.ScheduleIsLaneRecurrence : Prop :=
  (∀ (kw0 : Word) (s t : State) (w : Nat → Lane), exec (.exp128 kw0) s = .next t →
    (∀ i < 4, w i = laneOf kw0 i) →
      ((∀ i, 4 ≤ i → i < 44 → w i = w (i - 4) ^^^
          (if i % 4 = 0 then ror32 (subWord (w (i - 1))) 8 ^^^ (rcon (i / 4)).setWidth 32 else w (i - 1))) ↔
        ∀ i < 44, w i = laneOf (t.rkAt (i / 4)) (i % 4))) ∧
  (∀ (kw0 kw1 : Word) (s t : State) (w : Nat → Lane), exec (.exp256 kw0 kw1) s = .next t →
    (∀ i < 4, w i = laneOf kw0 i ∧ w (i + 4) = laneOf kw1 i) →
      ((∀ i, 8 ≤ i → i < 60 → w i = w (i - 8) ^^^
          (if i % 8 = 0 then ror32 (subWord (w (i - 1))) 8 ^^^ (rcon (i / 8)).setWidth 32
           else if i % 8 = 4 then subWord (w (i - 1)) else w (i - 1))) ↔
        ∀ i < 60, w i = laneOf (t.rkAt (i / 4)) (i % 4)))

/-! ### The block commands (42_block_kernel.md, 43_tail_safe_run.md, 20_memory.md) -/

/-- R41: byte `k` of the word the core works on is the byte at address `addr + k`, for a block read and
for a block written, and is bits `8k+7` to `8k` of the word (R9); a block write changes no other byte. -/
def Obligations.BlockByteOrder : Prop :=
  (∀ (W : Word) (k : Nat), byteOf W k = W.extractLsb' (8 * k) 8) ∧
  (∀ (m : Memory) (a : Nat), ∀ k < 16, byteOf (readBlock m a) k = readByte m (a + k)) ∧
  (∀ (m : Memory) (a : Nat) (W : Word), (∀ k < 16, readByte (writeBlock m a W) (a + k) = byteOf W k) ∧
    ∀ x, x < a ∨ a + 16 ≤ x → readByte (writeBlock m a W) x = readByte m x)

/-- ENC1 completes whenever its checks pass: the block at `ADDR` becomes `Cipher` of it, status 0, and
nothing else changes (R128). -/
def Obligations.Enc1Result : Prop :=
  ∀ (u : Bool) (addr : Nat) (s : State), isAdmitted s u addr 1 →
    ∃ t, exec (.enc1 u addr) s = .next t ∧
      readBlock t.mem addr = cipher s.nr.toNat s.rkAt (readBlock s.mem addr) ∧
      (∀ a, a < addr ∨ addr + 16 ≤ a → readByte t.mem a = readByte s.mem a) ∧
      t.resp = s.resp ++ [0] ∧ t.flt = s.flt ∧ sameContext s t ∧ sameSurroundings s t

/-- ENC4 completes whenever its checks pass: each of the four blocks becomes `Cipher` of itself, status
0, and nothing else changes (R131, R132). -/
def Obligations.Enc4Result : Prop :=
  ∀ (u : Bool) (addr : Nat) (s : State), isAdmitted s u addr 4 →
    ∃ t, exec (.enc4 u addr) s = .next t ∧
      (∀ j < 4, readBlock t.mem (addr + 16 * j) = cipher s.nr.toNat s.rkAt (readBlock s.mem (addr + 16 * j))) ∧
      (∀ a, a < addr ∨ addr + 64 ≤ a → readByte t.mem a = readByte s.mem a) ∧
      t.resp = s.resp ++ [0] ∧ t.flt = s.flt ∧ sameContext s t ∧ sameSurroundings s t

/-- RUN completes for every block count whenever its checks pass: each of the `N` blocks becomes
`Cipher` of itself, status 0, and nothing else changes (R145, R150). -/
def Obligations.RunResult : Prop :=
  ∀ (u : Bool) (addr n : Nat) (s : State), isAdmitted s u addr n →
    ∃ t, exec (.run u addr n) s = .next t ∧
      (∀ i < n, readBlock t.mem (addr + 16 * i) = cipher s.nr.toNat s.rkAt (readBlock s.mem (addr + 16 * i))) ∧
      (∀ a, a < addr ∨ addr + 16 * n ≤ a → readByte t.mem a = readByte s.mem a) ∧
      t.resp = s.resp ++ [0] ∧ t.flt = s.flt ∧ sameContext s t ∧ sameSurroundings s t

/-- R132: the round-major interleaved loop on the four lane registers gives, in each lane, the cipher
of that lane alone. -/
def Obligations.InterleavedLanesAreIndependent : Prop :=
  ∀ (nr : Nat) (rk : Nat → Word) (st : Vector Word 4), 1 ≤ nr → ∀ j, (hj : j < 4) →
    (encryptLanes nr rk st)[j] = cipher nr rk st[j]

/-- R133: operation `(r, j)` enters the round unit in slot `4 * (r - 1) + j`, four slots after
`(r - 1, j)`, and there are `4 * NR` of them. -/
def Obligations.IssueOrderSlots : Prop :=
  ∀ nr : Nat, (issueOrder nr).length = 4 * nr ∧
    (∀ r j, 1 ≤ r → r ≤ nr → j < 4 → (issueOrder nr)[4 * (r - 1) + j]? = some (r, j)) ∧
    (∀ (k r j : Nat), (issueOrder nr)[k + 4]? = some (r + 1, j) → (issueOrder nr)[k]? = some (r, j))

/-- R146: RUN with `N = 0` makes no access and no check but that of the context, at any address and in
both variants. -/
def Obligations.RunOfNoBlocks : Prop :=
  ∀ (u : Bool) (addr : Nat) (s : State), accesses (.run u addr 0) s = [] ∧
    (hasContext s → exec (.run u addr 0) s = .next { s with resp := s.resp ++ [0] }) ∧
    (¬ hasContext s → s.flt = 0 →
      exec (.run u addr 0) s = .next { s with flt := 2, resp := s.resp ++ [2] })

/-- R150: a RUN has the same effect on memory and state as its blocks encrypted one by one with ENC1;
only the number of responses differs. -/
def Obligations.RunEqualsSingleBlocks : Prop :=
  ∀ (u : Bool) (addr n : Nat) (s : State), s.flt = 0 → isAdmitted s u addr n →
    ∃ t t', exec (.run u addr n) s = .next t ∧
      runCommands ((List.range n).map fun i => .enc1 u (addr + 16 * i)) s = .next t' ∧
      (∀ a, readByte t.mem a = readByte t'.mem a) ∧
      t.flt = t'.flt ∧ sameContext t t' ∧ sameSurroundings t t' ∧
      t'.resp = s.resp ++ List.replicate n 0

/-- R150: `RUN ADDR, 4` is `ENC4 ADDR` and `RUN ADDR, 1` is `ENC1 ADDR`, faults included. -/
def Obligations.ShortRuns : Prop :=
  ∀ (u : Bool) (addr : Nat) (s : State),
    exec (.run u addr 4) s = exec (.enc4 u addr) s ∧ exec (.run u addr 1) s = exec (.enc1 u addr) s

/-- R135 and R136: with the same round count and the same round keys 0 to `NR`, equal input blocks give
equal output blocks, whichever block commands encrypt them, at whatever position, address, variant
and surrounding data. -/
def Obligations.PathEquivalence : Prop :=
  ∀ (i i' : Instr) (u u' : Bool) (addr addr' n n' j j' : Nat) (s s' t t' : State),
    blockOperands i = some (u, addr, n) → blockOperands i' = some (u', addr', n') →
    isAdmitted s u addr n → isAdmitted s' u' addr' n' → j < n → j' < n' →
    s.nr = s'.nr → (∀ r ≤ s.nr.toNat, s.rkAt r = s'.rkAt r) →
    readBlock s.mem (addr + 16 * j) = readBlock s'.mem (addr' + 16 * j') →
    exec i s = .next t → exec i' s' = .next t' →
      readBlock t.mem (addr + 16 * j) = readBlock t'.mem (addr' + 16 * j')

/-- The known answers of S5 (95_test_vectors.md), for both round counts: from any state that is not
faulted, an EXP command with the key and then ENC1, or RUN with `N = 1`, on the 16 plaintext bytes leave
the 16 ciphertext bytes. A byte sequence is written as there, byte 0 first. -/
def Obligations.KnownAnswers : Prop :=
  let byteAt (v : Word) (k : Nat) : Byte := v.extractLsb' (8 * (15 - k)) 8
  let key (v : Word) : Word := wordOfBytes (byteAt v)
  let rows : List (Instr × Word × Word) :=
    [(.exp128 (key 0), 0, 0x66e94bd4ef8a2c3b884cfa59ca342b2e),
     (.exp128 (key 0x000102030405060708090a0b0c0d0e0f),
       0x00112233445566778899aabbccddeeff, 0x69c4e0d86a7b0430d8cdb78070b4c55a),
     (.exp128 (key 0x2b7e151628aed2a6abf7158809cf4f3c),
       0x3243f6a8885a308d313198a2e0370734, 0x3925841d02dc09fbdc118597196a0b32),
     (.exp256 (key 0) (key 0), 0, 0xdc95c078a2408989ad48a21492842087),
     (.exp256 (key 0x000102030405060708090a0b0c0d0e0f) (key 0x101112131415161718191a1b1c1d1e1f),
       0x00112233445566778899aabbccddeeff, 0x8ea2b7ca516745bfeafc49904b496089),
     (.exp256 (key 0x603deb1015ca71be2b73aef0857d7781) (key 0x1f352c073b6108d72d9810a30914dff4),
       0x6bc1bee22e409f96e93d7e117393172a, 0xf3eed1bdb5d2a03c064b5a7e3db181f8)]
  ∀ row ∈ rows, ∀ (u : Bool) (addr : Nat) (s : State), s.flt = 0 → isAligned u addr → isInBounds s addr 1 →
    (∀ k < 16, readByte s.mem (addr + k) = byteAt row.2.1 k) →
    ∀ i ∈ [Instr.enc1 u addr, .run u addr 1], ∃ t, runCommands [row.1, i] s = .next t ∧
      (∀ k < 16, readByte t.mem (addr + k) = byteAt row.2.2 k) ∧ t.resp = s.resp ++ [0, 0]

/-- R184: the checks of a block command in their order, and what the first failing one does. Each clause
fixes the whole next state. -/
def Obligations.BlockCheckOrder : Prop :=
  ∀ (i : Instr) (u : Bool) (addr n : Nat) (s : State), blockOperands i = some (u, addr, n) → s.flt = 0 →
    (¬ hasContext s → exec i s = .next { s with flt := 2, resp := s.resp ++ [2] }) ∧
    (hasContext s → n = 0 → exec i s = .next { s with resp := s.resp ++ [0] }) ∧
    (hasContext s → n ≠ 0 → ¬ isAligned u addr →
      exec i s = .next { s with flt := 4, resp := s.resp ++ [4] }) ∧
    (hasContext s → n ≠ 0 → isAligned u addr → ¬ isInBounds s addr n →
      exec i s = .next { s with flt := 3, resp := s.resp ++ [3] })

/-- R151: a RUN on at least one block that does not fault has `N <= (2^32 - ADDR) div 16`, so at most
`2^28`. -/
def Obligations.RunCountBound : Prop :=
  ∀ (u : Bool) (addr n : Nat) (s t : State), 0 < n → s.flt = 0 → exec (.run u addr n) s = .next t →
    t.flt = 0 → n ≤ (2 ^ 32 - addr) / 16 ∧ n ≤ 2 ^ 28

/-- The accesses of a block command that passes its checks are those of the reference order of R53:
full windows only for the 4-way kernel (R147), then the tail blocks. That accesses to different blocks
come in this order is the model's choice (log 8): R53 defines no order between blocks. -/
def Obligations.AccessesInReferenceOrder : Prop :=
  ∀ (i : Instr) (u : Bool) (addr n : Nat) (s : State), blockOperands i = some (u, addr, n) →
    isAdmitted s u addr n → accesses i s = referenceAccesses addr n

/-- R43: a block command that passes its checks reads each block of its buffer exactly once and, after
that, writes it exactly once, and makes no other access; a command that fails a check makes none; nor
do EXP128, EXP256 and DBL (R40). -/
def Obligations.EachBlockReadThenWrittenOnce : Prop :=
  (∀ (i : Instr) (u : Bool) (addr n : Nat) (s : State), blockOperands i = some (u, addr, n) →
    isAdmitted s u addr n →
      (accesses i s).length = 2 * n ∧
      (∀ b < n, (accesses i s).count ⟨.read, addr + 16 * b⟩ = 1 ∧
        (accesses i s).count ⟨.write, addr + 16 * b⟩ = 1 ∧
        (accesses i s).idxOf ⟨.read, addr + 16 * b⟩ < (accesses i s).idxOf ⟨.write, addr + 16 * b⟩) ∧
      (∀ x ∈ accesses i s, ∃ b < n, x.addr = addr + 16 * b)) ∧
  (∀ (i : Instr) (u : Bool) (addr n : Nat) (s : State), blockOperands i = some (u, addr, n) →
    ¬ isAdmitted s u addr n → accesses i s = []) ∧
  (∀ (i : Instr) (s : State), blockOperands i = none → accesses i s = [])

/-- R218 and R152: which accesses a command makes, and whether and which fault it raises, depend on its
header, `ADDR`, `N`, `NR` and `Buf` alone, on no bit of a key, a round key, a block or a field
element. -/
def Obligations.ControlIgnoresData : Prop :=
  ∀ (i i' : Instr) (s s' t t' : State), sameHeader i i' = true → s.nr = s'.nr → s.buf = s'.buf →
    s.flt = s'.flt → exec i s = .next t → exec i' s' = .next t' →
      accesses i s = accesses i' s' ∧ t.flt = t'.flt

/-! ### The doubler (44_field_doubler.md) -/

/-- DBL completes in every state, with or without a context: the response is status 0 and the four
words of the document's formula, and nothing else changes (R161, R72, R168). -/
def Obligations.DblResult : Prop :=
  ∀ (x : Word) (s : State),
    let y := (x <<< 1) ^^^ (if x.getLsbD 127 then 0x87 else 0)
    ∃ t, exec (.dbl x) s = .next t ∧
      t.resp = s.resp ++ [0, laneOf y 0, laneOf y 1, laneOf y 2, laneOf y 3] ∧
      t.flt = s.flt ∧ (∀ a, readByte t.mem a = readByte s.mem a) ∧ sameContext s t ∧ sameSurroundings s t

/-- R162: the mask is all ones or all zeros by the top bit; the branchless form equals the conditional
one; its result bit by bit. -/
def Obligations.BranchlessDoubling : Prop :=
  ∀ x : Word,
    topBitMask x = (if x.getLsbD 127 then BitVec.allOnes 128 else 0) ∧
    double x = (x <<< 1) ^^^ (if x.getLsbD 127 then 0x87 else 0) ∧
    (double x).getLsbD 0 = x.getLsbD 127 ∧
    (∀ i, 1 ≤ i → i < 128 → (double x).getLsbD i =
      if i = 1 ∨ i = 2 ∨ i = 7 then x.getLsbD (i - 1) ^^ x.getLsbD 127 else x.getLsbD (i - 1))

/-- R165: doubling is linear and a bijection with the inverse given there, and iterates from 1 as given
there. -/
def Obligations.DoublingLaws : Prop :=
  (∀ a b : Word, double (a ^^^ b) = double a ^^^ double b) ∧
  (Function.Bijective double ∧
    ∀ y : Word, double (((y ^^^ (if y.getLsbD 0 then 0x87 else 0)) >>> 1) |||
      ((y.extractLsb' 0 1).setWidth 128 <<< 127)) = y) ∧
  (∀ k ≤ 127, double^[k] 1 = 1 <<< k) ∧
  double^[128] 1 = 0x87 ∧ double^[129] 1 = 0x10E ∧ double^[130] 1 = 0x21C

/-- R164: doubling is multiplication by `x` modulo `x^128 + x^7 + x^2 + x + 1` over GF(2), bit `i` of a
value being the coefficient of `x^i` (R160); and the two cases by the top bit. -/
def Obligations.DoublingIsMultiplicationByX : Prop :=
  let poly (v : Word) : Polynomial (ZMod 2) :=
    ∑ i ∈ Finset.range 128, if v.getLsbD i then Polynomial.X ^ i else 0
  ∀ a : Word, poly (double a) = (Polynomial.X * poly a) %ₘ
      (Polynomial.X ^ 128 + Polynomial.X ^ 7 + Polynomial.X ^ 2 + Polynomial.X + 1) ∧
    (a.getLsbD 127 = false → double a = a <<< 1) ∧
    (a.getLsbD 127 = true → double a = (a <<< 1) ^^^ 0x87)

/-! ### Faults (60_exceptions.md) -/

/-- R185, R186: a command that raises a fault has had no effect on `RK`, `NR` or memory, has made no
access, and is answered by its code alone; the FAULT output is then high (R188). -/
def Obligations.FaultsArePrecise : Prop :=
  ∀ (i : Instr) (s t : State), s.flt = 0 → exec i s = .next t → t.flt ≠ 0 →
    (t.flt = 2 ∨ t.flt = 3 ∨ t.flt = 4) ∧ t.resp = s.resp ++ [t.flt.setWidth 32] ∧
    t.mem = s.mem ∧ sameContext s t ∧ sameSurroundings s t ∧ accesses i s = [] ∧ t.faultOutput = true

/-- R187: a faulted core makes no move: with the host idle there is no step, and when the host leaves
it the turn nothing changes but the host's plans. -/
def Obligations.FaultedCoreDoesNothing : Prop :=
  ∀ s : State, s.flt ≠ 0 →
    (s.host = [] → step s = .fault .halted) ∧
    (∀ hs, s.host = .coreTurn :: hs → step s = .next { s with host := hs })

/-- R29 and R189: once a fault is recorded, no step but an assertion of reset changes `FLT`. -/
def Obligations.OnlyResetClearsFault : Prop :=
  ∀ s t : State, s.flt ≠ 0 → step s = .next t → t.flt ≠ s.flt →
    t.flt = 0 ∧ ∃ hs, s.host = .reset :: hs ∨ s.host = .resetInCommand :: hs

/-- R72: every command that is executed sends exactly one response: status 0 and the four words of the
result for a completed DBL, or one status word, which is 0 unless the command raised the fault now in
`FLT`. -/
def Obligations.OneResponsePerCommand : Prop :=
  ∀ (i : Instr) (s t : State), s.flt = 0 → exec i s = .next t →
    (∃ x, i = .dbl x ∧ t.flt = 0 ∧ t.resp = s.resp ++
      [0, laneOf (double x) 0, laneOf (double x) 1, laneOf (double x) 2, laneOf (double x) 3]) ∨
    ((∀ x, i ≠ .dbl x) ∧ t.resp = s.resp ++ [t.flt.setWidth 32])

/-! ### The context (10_state.md) -/

/-- R22: of all moves of the machine only EXP128, EXP256 and reset write `RK` or `NR`: a step that leads
elsewhere was an assertion of reset or the execution of an EXP command. -/
def Obligations.OnlyExpandAndResetWriteContext : Prop :=
  ∀ s t : State, step s = .next t → ¬ sameContext s t →
    (∃ hs, s.host = .reset :: hs ∨ s.host = .resetInCommand :: hs) ∨
    ((s.host = [] ∨ ∃ hs, s.host = .coreTurn :: hs) ∧
      ∃ i rest, decode (s.frame ++ s.cmd) = .ok (i, rest) ∧
        ((∃ k, i = .exp128 k) ∨ ∃ k k', i = .exp256 k k'))

/-- R25: no command's response depends on the content of `RK`. -/
def Obligations.ResponsesHideRoundKeys : Prop :=
  ∀ (i : Instr) (s : State) (rk : Vector Word 15) (t t' : State),
    exec i s = .next t → exec i { s with rk := rk } = .next t' → t.resp = t'.resp ∧ t.flt = t'.flt

/-- R24, R34 and R127: only `RK[0..NR]` is ever read, and nothing of it without a context: two states
that agree on those entries and on everything but `RK` give the same memory, `NR`, `FLT` and response,
whatever the other entries hold. -/
def Obligations.UnwrittenRoundKeysAreNotRead : Prop :=
  ∀ (i : Instr) (s : State) (rk : Vector Word 15) (t t' : State),
    (hasContext s → ∀ r ≤ s.nr.toNat, rk.getD r 0 = s.rkAt r) →
    exec i s = .next t → exec i { s with rk := rk } = .next t' →
      t.mem = t'.mem ∧ t.nr = t'.nr ∧ t.flt = t'.flt ∧ t.resp = t'.resp

/-! ### Reset and the host (70_reset_and_hazards.md, 30_encoding.md R60) -/

/-- What the spec states for the state after reset: no context, no fault, FAULT low, at a header boundary
(R34, R205). -/
def Obligations.ResetValues : Prop :=
  State.reset.nr = 0 ∧ State.reset.flt = 0 ∧ State.reset.faultOutput = false ∧ State.reset.frame = []

/-- R205: an assertion of reset between commands, in any state, a faulted one too: no context, no fault,
FAULT low, words of a partly received command discarded, memory untouched. That the channels keep the
words not yet taken is the model's reading (log 11). -/
def Obligations.ResetInput : Prop :=
  ∀ (s : State) (hs : List HostAction), s.host = .reset :: hs →
    ∃ t, step s = .next t ∧ t.nr = 0 ∧ t.flt = 0 ∧ t.faultOutput = false ∧ t.frame = [] ∧
      t.mem = s.mem ∧ t.buf = s.buf ∧ t.host = hs ∧ t.cmd = s.cmd ∧ t.resp = s.resp

/-- R206 and R205: an assertion of reset while a command all of whose words are there is taken or
executed: no context, no fault, no response, every byte of memory holds its old value or the one the
command would have given it. That the response channel keeps the responses not yet taken, and that of
the words in the channel some of this command's, or all of them, have been taken and none of a later
command, are the model's choices (logs 11 and 10). -/
def Obligations.ResetDuringCommand : Prop :=
  ∀ (s u : State) (hs : List HostAction) (i : Instr) (rest : List Lane), s.host = .resetInCommand :: hs →
    s.flt = 0 → decode (s.frame ++ s.cmd) = .ok (i, rest) →
    exec i { s with frame := [], cmd := rest, host := hs } = .next u →
      ∃ t, step s = .next t ∧ t.nr = 0 ∧ t.flt = 0 ∧ t.frame = [] ∧ t.resp = s.resp ∧ t.buf = s.buf ∧
        t.host = hs ∧ (∀ a, readByte t.mem a = readByte s.mem a ∨ readByte t.mem a = readByte u.mem a) ∧
        (frameOpen s.frame = true → t.cmd <:+ s.cmd ∧ rest <:+ t.cmd)

/-- R205 and R206: an assertion of reset while the core is receiving an incomplete command, is at an
illegal header, or has no move to make (it is faulted, or there is no word): no context, no fault, the
FAULT output low, framing empty, no response, memory untouched. That the response channel keeps the
responses not yet taken, and how many of the words in the channel have been taken, are the model's
choices (logs 11 and 10). -/
def Obligations.ResetWhileReceiving : Prop :=
  ∀ (s : State) (hs : List HostAction), s.host = .resetInCommand :: hs →
    ∃ t, step s = .next t ∧
      ((s.flt ≠ 0 ∨ s.frame ++ s.cmd = [] ∨ (∃ op, decode (s.frame ++ s.cmd) = .error (.payloadMissing op)) ∨
          (s.frame = [] ∧ ∃ h, decode s.cmd = .error (.illegalHeader h))) →
        t.nr = 0 ∧ t.flt = 0 ∧ t.faultOutput = false ∧ t.frame = [] ∧ t.resp = s.resp ∧ t.buf = s.buf ∧
        t.host = hs ∧ (∀ a, readByte t.mem a = readByte s.mem a) ∧ t.cmd <:+ s.cmd) ∧
      (s.flt ≠ 0 → t.cmd = s.cmd) ∧
      (∀ h ws, s.flt = 0 → s.frame = [] → s.cmd = h :: ws → decode s.cmd = .error (.illegalHeader h) →
        t.cmd = s.cmd ∨ t.cmd = ws)

/-- R60 and R7: the host's moves on the channels, on its memory and on `Buf`, each of which leaves the
core's registers and framing alone. That they land between the core's moves is the model's choice
(log 7). -/
def Obligations.HostMoves : Prop :=
  (∀ (s : State) (w : Lane) (hs : List HostAction), s.host = .sendWord w :: hs →
    step s = .next { s with cmd := s.cmd ++ [w], host := hs }) ∧
  (∀ (s : State) (w : Lane) (ws : List Lane) (hs : List HostAction), s.host = .takeWord :: hs →
    s.resp = w :: ws → step s = .next { s with resp := ws, host := hs }) ∧
  (∀ (s : State) (a : Lane) (b : Byte) (hs : List HostAction), s.host = .writeByte a b :: hs →
    ∃ t, step s = .next t ∧ (∀ x, readByte t.mem x = if x = a.toNat then b else readByte s.mem x) ∧
      sameContext s t ∧ t.flt = s.flt ∧ t.frame = s.frame ∧ t.cmd = s.cmd ∧ t.resp = s.resp ∧
      t.buf = s.buf ∧ t.host = hs) ∧
  (∀ (s : State) (rs : List Region) (hs : List HostAction), s.host = .setBuf rs :: hs →
    step s = .next { s with buf := rs, host := hs })

/-! ### The invariant (10_state.md R26, R28, R29) -/

/-- The invariant holds right after reset. -/
def Obligations.InvariantAtReset : Prop := Inv State.reset

/-- Every step keeps the invariant: memory in its canonical form; `NR` 0, or 10 with the round keys of a
128-bit key, or 14 with those of a 256-bit key (R26, R28); `FLT` a code of R176 (R29); framing that of
one command. -/
def Obligations.StepKeepsInvariant : Prop :=
  ∀ s t : State, Inv s → step s = .next t → Inv t

/-- R26: after any run of complete commands that comes to its end, the context is that of the key of the
most recent EXP command. -/
def Obligations.ContextIsOfMostRecentKey : Prop :=
  ∀ (before after : List Instr) (s t : State),
    (∀ i ∈ after, (∀ k, i ≠ .exp128 k) ∧ ∀ k k', i ≠ .exp256 k k') →
    (∀ kw0, runCommands (before ++ .exp128 kw0 :: after) s = .next t →
      t.nr = 10 ∧ t.rkAt 0 = kw0 ∧
      ∀ i, 1 ≤ i → i ≤ 10 → t.rkAt i = keyStep (t.rkAt (i - 1)) (assistRc (t.rkAt (i - 1)) (rcon i))) ∧
    (∀ kw0 kw1, runCommands (before ++ .exp256 kw0 kw1 :: after) s = .next t →
      t.nr = 14 ∧ t.rkAt 0 = kw0 ∧ t.rkAt 1 = kw1 ∧
      ∀ i, 2 ≤ i → i ≤ 14 → t.rkAt i = keyStep (t.rkAt (i - 2))
        (if i % 2 = 0 then assistRc (t.rkAt (i - 1)) (rcon (i / 2)) else assistNoRc (t.rkAt (i - 1))))
end

