-- ==== Sys2Proof/Laws/Bits.lean ====
section
/-! SUPPORT. Lanes and bytes of a word: a word is its 16 bytes, and its four lanes. -/

namespace Sys2Proof.Machine

/-- Bit `i` of packed fields is bit `i mod w` of field `i div w`. -/
theorem getLsbD_pack {w : Nat} (hw : 0 < w) (f : Nat → BitVec w) (n i : Nat) (hi : i < 128) :
    (pack f n).getLsbD i = (decide (i < w * n) && (f (i / w)).getLsbD (i % w)) := by
  induction n with
  | zero => simp [pack]
  | succ n ih =>
    simp only [pack, BitVec.getLsbD_or, ih, BitVec.getLsbD_shiftLeft, BitVec.getLsbD_setWidth, hi,
      decide_true, Bool.true_and]
    by_cases h1 : i < w * n
    · have h2 : i < w * (n + 1) := by rw [Nat.mul_succ]; omega
      simp [h1, h2]
    · have hsub : i - w * n < 128 := by omega
      by_cases h2 : i < w * (n + 1)
      · have hd : i / w = n := by
          rw [Nat.mul_succ] at h2
          rw [Nat.div_eq_iff hw]
          rw [Nat.mul_comm n w]
          omega
        have hm : i % w = i - w * n := by
          have := Nat.div_add_mod i w
          rw [hd] at this
          omega
        simp [h1, h2, hd, hm, hsub]
      · have h3 : w ≤ i - w * n := by rw [Nat.mul_succ] at h2; omega
        simp [h1, h2, BitVec.getLsbD_of_ge _ _ h3]

/-- Byte `k` of the word with bytes `b` is `b k`. -/
@[simp] theorem byteOf_wordOfBytes (b : Nat → Byte) (k : Nat) (hk : k < 16) :
    byteOf (wordOfBytes b) k = b k := by
  apply BitVec.eq_of_getLsbD_eq
  intro i hi
  have h1 : 8 * k + i < 128 := by omega
  have h2 : 8 * k + i < 8 * 16 := by omega
  have h3 : (8 * k + i) / 8 = k := by omega
  have h4 : (8 * k + i) % 8 = i := by omega
  rw [byteOf, BitVec.getLsbD_extractLsb', wordOfBytes, getLsbD_pack (by decide) b 16 _ h1, h3, h4,
    decide_eq_true hi, decide_eq_true h2, Bool.true_and, Bool.true_and]

/-- Bit `i` of a word is bit `i mod 8` of its byte `i div 8`. -/
theorem getLsbD_eq_byteOf (W : Word) (i : Nat) : W.getLsbD i = (byteOf W (i / 8)).getLsbD (i % 8) := by
  have h1 : i % 8 < 8 := Nat.mod_lt _ (by decide)
  have h2 : 8 * (i / 8) + i % 8 = i := Nat.div_add_mod i 8
  simp [byteOf, h1, h2]

/-- Bit `i` of a word is bit `i mod 32` of its lane `i div 32`. -/
theorem getLsbD_eq_laneOf (W : Word) (i : Nat) : W.getLsbD i = (laneOf W (i / 32)).getLsbD (i % 32) := by
  have h1 : i % 32 < 32 := Nat.mod_lt _ (by decide)
  have h2 : 32 * (i / 32) + i % 32 = i := Nat.div_add_mod i 32
  simp [laneOf, h1, h2]

/-- The bytes of a sum are the sums of the bytes. -/
theorem byteOf_xor (V W : Word) (k : Nat) : byteOf (V ^^^ W) k = byteOf V k ^^^ byteOf W k := by
  simp [byteOf, BitVec.extractLsb'_xor]

/-- Two words with the same bytes are equal. -/
theorem word_ext_bytes {V W : Word} (h : ∀ k < 16, byteOf V k = byteOf W k) : V = W := by
  apply BitVec.eq_of_getLsbD_eq
  intro i hi
  rw [getLsbD_eq_byteOf V, getLsbD_eq_byteOf W, h (i / 8) (by omega)]

/-- Two words with the same lanes are equal. -/
theorem word_ext_lanes {V W : Word} (h : ∀ j < 4, laneOf V j = laneOf W j) : V = W := by
  apply BitVec.eq_of_getLsbD_eq
  intro i hi
  rw [getLsbD_eq_laneOf V, getLsbD_eq_laneOf W, h (i / 32) (by omega)]

/-- A word is the word of its bytes. -/
@[simp] theorem wordOfBytes_byteOf (W : Word) : wordOfBytes (byteOf W) = W :=
  word_ext_bytes fun k hk => byteOf_wordOfBytes _ k hk

/-- Only the 16 bytes matter. -/
theorem wordOfBytes_congr {b c : Nat → Byte} (h : ∀ k < 16, b k = c k) : wordOfBytes b = wordOfBytes c :=
  word_ext_bytes fun k hk => by rw [byteOf_wordOfBytes _ k hk, byteOf_wordOfBytes _ k hk, h k hk]

/-- The bits of a concatenation of four lanes. -/
theorem getLsbD_wordOfLanes (a b c d : Lane) (i : Nat) :
    (wordOfLanes a b c d).getLsbD i =
      if i < 32 then a.getLsbD i else if i - 32 < 32 then b.getLsbD (i - 32) else
        if i - 32 - 32 < 32 then c.getLsbD (i - 32 - 32) else d.getLsbD (i - 32 - 32 - 32) := by
  have h1 := BitVec.getLsbD_append (x := d ++ c ++ b) (y := a) (i := i)
  have h2 := BitVec.getLsbD_append (x := d ++ c) (y := b) (i := i - 32)
  have h3 := BitVec.getLsbD_append (x := d) (y := c) (i := i - 32 - 32)
  rw [h3] at h2
  rw [h2] at h1
  exact h1

/-- Lane `j` of a concatenation of four lanes. -/
theorem laneOf_wordOfLanes (a b c d : Lane) (j : Nat) (hj : j < 4) :
    laneOf (wordOfLanes a b c d) j = [a, b, c, d].getD j 0 := by
  apply BitVec.eq_of_getLsbD_eq
  intro i hi
  rw [laneOf, BitVec.getLsbD_extractLsb', getLsbD_wordOfLanes, decide_eq_true hi, Bool.true_and]
  match j, hj with
  | 0, _ => rw [if_pos (by omega), Nat.mul_zero, Nat.zero_add]; rfl
  | 1, _ => rw [if_neg (by omega), if_pos (by omega), show 32 * 1 + i - 32 = i by omega]; rfl
  | 2, _ =>
    rw [if_neg (by omega), if_neg (by omega), if_pos (by omega), show 32 * 2 + i - 32 - 32 = i by omega]
    rfl
  | 3, _ =>
    rw [if_neg (by omega), if_neg (by omega), if_neg (by omega),
      show 32 * 3 + i - 32 - 32 - 32 = i by omega]
    rfl

@[simp] theorem laneOf_wordOfLanes_zero (a b c d : Lane) : laneOf (wordOfLanes a b c d) 0 = a :=
  laneOf_wordOfLanes a b c d 0 (by decide)

@[simp] theorem laneOf_wordOfLanes_one (a b c d : Lane) : laneOf (wordOfLanes a b c d) 1 = b :=
  laneOf_wordOfLanes a b c d 1 (by decide)

@[simp] theorem laneOf_wordOfLanes_two (a b c d : Lane) : laneOf (wordOfLanes a b c d) 2 = c :=
  laneOf_wordOfLanes a b c d 2 (by decide)

@[simp] theorem laneOf_wordOfLanes_three (a b c d : Lane) : laneOf (wordOfLanes a b c d) 3 = d :=
  laneOf_wordOfLanes a b c d 3 (by decide)

/-- A word is the word of its lanes. -/
@[simp] theorem wordOfLanes_laneOf (W : Word) :
    wordOfLanes (laneOf W 0) (laneOf W 1) (laneOf W 2) (laneOf W 3) = W := by
  apply word_ext_lanes
  intro j hj
  match j, hj with
  | 0, _ => simp
  | 1, _ => simp
  | 2, _ => simp
  | 3, _ => simp

/-- Byte `k` of a word is byte `k mod 4` of its lane `k div 4` (R9, R65). -/
theorem byteOf_eq_laneByte (W : Word) (k : Nat) : byteOf W k = laneByte (laneOf W (k / 4)) (k % 4) := by
  apply BitVec.eq_of_getLsbD_eq
  intro i hi
  have h1 : k % 4 < 4 := Nat.mod_lt _ (by decide)
  have h2 : 8 * (k % 4) + i < 32 := by omega
  have h3 : 32 * (k / 4) + (8 * (k % 4) + i) = 8 * k + i := by omega
  simp [byteOf, laneByte, laneOf, hi, h2, h3]

/-- `word_to_bytes` undoes `bytes_to_word` on 16 bytes (R10). -/
theorem wordToBytes_bytesToWord (b : List Byte) (h : b.length = 16) : wordToBytes (bytesToWord b) = b := by
  apply List.ext_getElem
  · simp [wordToBytes, h]
  · intro k h1 h2
    have hk : k < 16 := by omega
    simp [wordToBytes, bytesToWord, byteOf_wordOfBytes _ k hk, h2]

/-- `bytes_to_word` undoes `word_to_bytes` (R10). -/
theorem bytesToWord_wordToBytes (W : Word) : bytesToWord (wordToBytes W) = W := by
  apply word_ext_bytes
  intro k hk
  simp [bytesToWord, wordToBytes, byteOf_wordOfBytes _ k hk, hk]

end Sys2Proof.Machine
end

