-- ==== Sys2Proof/Laws/Decode.lean ====
section
/-! SUPPORT. What the decoder does with a header and its payload. -/

namespace Sys2Proof

/-- The payload is read exactly when there are as many words as the row calls for (R71). -/
theorem readPayload_eq_none_iff (u : Bool) (op : Opcode) (ws : List Lane) :
    readPayload u op ws = none ↔ ws.length < payloadWords op := by
  rcases ws with _ | ⟨_, _ | ⟨_, _ | ⟨_, _ | ⟨_, _ | ⟨_, _ | ⟨_, _ | ⟨_, _ | ⟨_, _⟩⟩⟩⟩⟩⟩⟩⟩ <;> cases op <;>
    simp [readPayload, payloadWords]

/-- Reading takes as many words as the row calls for, and leaves the others (R71). -/
theorem readPayload_rest {u : Bool} {op : Opcode} {ws rest : List Lane} {i : Instr}
    (h : readPayload u op ws = some (i, rest)) : ws = ws.take (payloadWords op) ++ rest := by
  unfold readPayload at h
  split at h <;> first | (cases h; rfl) | cases h

/-- The decoder on a header of a row. -/
theorem decode_of_row {h : Lane} {op : Opcode} (hs : selectOpcode h = some op) (ws : List Lane) :
    decode (h :: ws) =
      match readPayload (headerU h) op ws with
      | some r => .ok r
      | none => .error (.payloadMissing op) := by
  simp only [decode, hs] <;> rfl

/-- The decoder on a header of no row (R74). -/
theorem decode_of_no_row {h : Lane} (hs : selectOpcode h = none) (ws : List Lane) :
    decode (h :: ws) = .error (.illegalHeader h) := by
  simp only [decode, hs]

/-- Payload is missing exactly when the header is legal and its command incomplete. -/
theorem decode_payloadMissing_iff (ws : List Lane) :
    (∃ op, decode ws = .error (.payloadMissing op)) ↔ ws ≠ [] ∧ Machine.frameOpen ws = true := by
  cases ws with
  | nil => simp [decode]
  | cons h ws =>
    cases hs : selectOpcode h with
    | none => simp [decode_of_no_row hs, Machine.frameOpen, hs]
    | some op =>
      simp only [decode_of_row hs, Machine.frameOpen, hs, decide_eq_true_eq, ← readPayload_eq_none_iff (headerU h)]
      cases readPayload (headerU h) op ws <;> simp

end Sys2Proof
end

