-- ==== Sys2Proof/Laws/State.lean ====
section
/-! SUPPORT. What each update of the state leaves in each field, one lemma per field per update. -/

namespace Sys2Proof.Machine

variable (s : State)

/-! ### A response touches the response channel only. -/

@[simp] theorem respond_rk (ws : List Lane) : (s.respond ws).rk = s.rk := rfl
@[simp] theorem respond_nr (ws : List Lane) : (s.respond ws).nr = s.nr := rfl
@[simp] theorem respond_flt (ws : List Lane) : (s.respond ws).flt = s.flt := rfl
@[simp] theorem respond_frame (ws : List Lane) : (s.respond ws).frame = s.frame := rfl
@[simp] theorem respond_cmd (ws : List Lane) : (s.respond ws).cmd = s.cmd := rfl
@[simp] theorem respond_resp (ws : List Lane) : (s.respond ws).resp = s.resp ++ ws := rfl
@[simp] theorem respond_mem (ws : List Lane) : (s.respond ws).mem = s.mem := rfl
@[simp] theorem respond_buf (ws : List Lane) : (s.respond ws).buf = s.buf := rfl
@[simp] theorem respond_host (ws : List Lane) : (s.respond ws).host = s.host := rfl
@[simp] theorem respond_draws (ws : List Lane) : (s.respond ws).draws = s.draws := rfl

/-! ### The response of a completed command. -/

@[simp] theorem respondOk_rk : (s.respondOk).rk = s.rk := rfl
@[simp] theorem respondOk_nr : (s.respondOk).nr = s.nr := rfl
@[simp] theorem respondOk_flt : (s.respondOk).flt = s.flt := rfl
@[simp] theorem respondOk_frame : (s.respondOk).frame = s.frame := rfl
@[simp] theorem respondOk_cmd : (s.respondOk).cmd = s.cmd := rfl
@[simp] theorem respondOk_resp : (s.respondOk).resp = s.resp ++ [statusWord 0] := rfl
@[simp] theorem respondOk_mem : (s.respondOk).mem = s.mem := rfl
@[simp] theorem respondOk_buf : (s.respondOk).buf = s.buf := rfl
@[simp] theorem respondOk_host : (s.respondOk).host = s.host := rfl
@[simp] theorem respondOk_draws : (s.respondOk).draws = s.draws := rfl

/-! ### Fault entry touches the fault register and the response channel only. -/

@[simp] theorem raiseFault_rk (c : FaultCode) : (raiseFault c s).rk = s.rk := rfl
@[simp] theorem raiseFault_nr (c : FaultCode) : (raiseFault c s).nr = s.nr := rfl
@[simp] theorem raiseFault_flt (c : FaultCode) : (raiseFault c s).flt = fltAfter s.flt c := rfl
@[simp] theorem raiseFault_frame (c : FaultCode) : (raiseFault c s).frame = s.frame := rfl
@[simp] theorem raiseFault_cmd (c : FaultCode) : (raiseFault c s).cmd = s.cmd := rfl
@[simp] theorem raiseFault_resp (c : FaultCode) : (raiseFault c s).resp = s.resp ++ [statusWord c.code] := rfl
@[simp] theorem raiseFault_mem (c : FaultCode) : (raiseFault c s).mem = s.mem := rfl
@[simp] theorem raiseFault_buf (c : FaultCode) : (raiseFault c s).buf = s.buf := rfl
@[simp] theorem raiseFault_host (c : FaultCode) : (raiseFault c s).host = s.host := rfl
@[simp] theorem raiseFault_draws (c : FaultCode) : (raiseFault c s).draws = s.draws := rfl

/-! ### The reset input. -/

@[simp] theorem applyReset_rk :
    (s.applyReset).rk = Vector.ofFn fun i : Fin 15 => Config.resetRoundKey s.draws s.rk i := rfl
@[simp] theorem applyReset_nr : (s.applyReset).nr = 0 := rfl
@[simp] theorem applyReset_flt : (s.applyReset).flt = 0 := rfl
@[simp] theorem applyReset_frame : (s.applyReset).frame = [] := rfl
@[simp] theorem applyReset_cmd : (s.applyReset).cmd = s.cmd := rfl
@[simp] theorem applyReset_resp : (s.applyReset).resp = s.resp := rfl
@[simp] theorem applyReset_mem : (s.applyReset).mem = s.mem := rfl
@[simp] theorem applyReset_buf : (s.applyReset).buf = s.buf := rfl
@[simp] theorem applyReset_host : (s.applyReset).host = s.host := rfl
@[simp] theorem applyReset_draws : (s.applyReset).draws = s.draws + 1 := rfl
@[simp] theorem applyReset_faultOutput : (s.applyReset).faultOutput = false := rfl

/-! ### A command placed at the head of the command stream. -/

@[simp] theorem placeCommand_rk (ws : List Lane) : (placeCommand s ws).rk = s.rk := rfl
@[simp] theorem placeCommand_nr (ws : List Lane) : (placeCommand s ws).nr = s.nr := rfl
@[simp] theorem placeCommand_flt (ws : List Lane) : (placeCommand s ws).flt = s.flt := rfl
@[simp] theorem placeCommand_frame (ws : List Lane) : (placeCommand s ws).frame = [] := rfl
@[simp] theorem placeCommand_cmd (ws : List Lane) : (placeCommand s ws).cmd = ws := rfl
@[simp] theorem placeCommand_resp (ws : List Lane) : (placeCommand s ws).resp = s.resp := rfl
@[simp] theorem placeCommand_mem (ws : List Lane) : (placeCommand s ws).mem = s.mem := rfl
@[simp] theorem placeCommand_buf (ws : List Lane) : (placeCommand s ws).buf = s.buf := rfl
@[simp] theorem placeCommand_host (ws : List Lane) : (placeCommand s ws).host = [] := rfl
@[simp] theorem placeCommand_draws (ws : List Lane) : (placeCommand s ws).draws = s.draws := rfl

/-! ### Reads of the round-key RAM and of the fault state -/

@[simp] theorem respond_rkAt (ws : List Lane) (i : Nat) : (s.respond ws).rkAt i = s.rkAt i := rfl
@[simp] theorem raiseFault_rkAt (c : FaultCode) (i : Nat) : (raiseFault c s).rkAt i = s.rkAt i := rfl

/-- `RK[i]` depends on the round-key RAM alone. -/
theorem rkAt_eq (s : State) (i : Nat) : s.rkAt i = s.rk.getD i 0 := rfl

/-- The core is faulted exactly when `FLT` is not 0. -/
theorem faulted_iff : s.faulted = true ↔ s.flt ≠ 0 := by simp [State.faulted]

/-- The core is not faulted exactly when `FLT` is 0. -/
theorem faulted_eq_false : s.faulted = false ↔ s.flt = 0 := by simp [State.faulted]

/-- Raising a fault leaves the core faulted. -/
theorem raiseFault_flt_ne_zero (c : FaultCode) : (raiseFault c s).flt ≠ 0 := by
  rw [raiseFault_flt, fltAfter]
  split
  · cases c <;> decide
  · assumption

end Sys2Proof.Machine
end

