-- ==== Sys2Proof/Laws/KeySchedule.lean ====
section
/-! SUPPORT. What is in the round-key RAM after writes, and after the two expansions. -/

namespace Sys2Proof.Machine

/-- Reading the round-key RAM after a write. -/
theorem rkSet_getD (rk : Vector Word 15) (i j : Nat) (W : Word) (hi : i < 15) :
    (rkSet rk i W).getD j 0 = if i = j then W else rk.getD j 0 := by
  by_cases hj : j < 15
  · by_cases h : i = j <;> simp [rkSet, Vector.getD, hj, h]
  · have : i ≠ j := by omega
    simp [rkSet, Vector.getD, hj, this]

/-- Each entry of a mixture is the old or the new one, as picked. -/
theorem mixKeys_getD (pick : Nat → Bool) (old new : Vector Word 15) (i : Nat) (hi : i < 15) :
    (mixKeys pick old new).getD i 0 = if pick i then new.getD i 0 else old.getD i 0 := by
  simp [mixKeys, Vector.getD, hi]

/-- A pass that writes entries `a .. a+m-1` in order leaves the others. -/
theorem foldl_rkSet_other (f : Vector Word 15 → Nat → Word) {a m j : Nat} (rk : Vector Word 15)
    (hm : a + m ≤ 15) (hj : j < a ∨ a + m ≤ j) :
    ((List.range' a m).foldl (fun rk i => rkSet rk i (f rk i)) rk).getD j 0 = rk.getD j 0 := by
  induction m generalizing a rk with
  | zero => rfl
  | succ m ih =>
    rw [List.range'_succ, List.foldl_cons, ih _ (by omega) (by omega), rkSet_getD _ _ _ _ (by omega),
      if_neg (by omega)]

/-- A pass that writes entries `a .. a+m-1` in order, each from the entries below it, leaves in each
what `f` gives on the final RAM. -/
theorem foldl_rkSet_self (f : Vector Word 15 → Nat → Word) {a m j : Nat} (rk : Vector Word 15)
    (hf : ∀ rk rk' i, 0 < i → (∀ k < i, rk.getD k 0 = rk'.getD k 0) → f rk i = f rk' i)
    (ha : 0 < a) (hm : a + m ≤ 15) (h1 : a ≤ j) (h2 : j < a + m) :
    ((List.range' a m).foldl (fun rk i => rkSet rk i (f rk i)) rk).getD j 0 =
      f ((List.range' a m).foldl (fun rk i => rkSet rk i (f rk i)) rk) j := by
  induction m generalizing a rk with
  | zero => omega
  | succ m ih =>
    rw [List.range'_succ, List.foldl_cons]
    by_cases hj : a + 1 ≤ j
    · exact ih _ (by omega) (by omega) hj (by omega)
    · obtain rfl : j = a := by omega
      rw [foldl_rkSet_other _ _ (by omega) (by omega), rkSet_getD _ _ _ _ (by omega), if_pos rfl]
      refine hf _ _ _ ha fun k hk => ?_
      rw [foldl_rkSet_other _ _ (by omega) (by omega), rkSet_getD _ _ _ _ (by omega), if_neg (by omega)]

/-- The next state of EXP128 (R114). -/
theorem execExp128_next (kw0 : Word) (s : State) :
    execExp128 kw0 s = .next { s with rk := expand128 kw0 s.rk, nr := 10, resp := s.resp ++ [0] } := rfl

/-- The next state of EXP256 (R117). -/
theorem execExp256_next (kw0 kw1 : Word) (s : State) :
    execExp256 kw0 kw1 s =
      .next { s with rk := expand256 kw0 kw1 s.rk, nr := 14, resp := s.resp ++ [0] } := rfl

end Sys2Proof.Machine
end

