-- ==== Sys2Proof/Laws/Exec.lean ====
section
/-! SUPPORT. The next state of each command, to be cited instead of unfolding its meaning. -/

namespace Sys2Proof.Machine

/-- An outcome that is a next state names that state. -/
theorem next_eq_next_iff (s t : State) :
    (.next s : Host.Outcome State Fault Refusal) = .next t ↔ t = s := by
  rw [Host.Outcome.next.injEq, eq_comm]

theorem exec_exp128_iff (kw0 : Word) (s t : State) :
    exec (.exp128 kw0) s = .next t ↔
      t = { s with rk := expand128 kw0 s.rk, nr := 10, resp := s.resp ++ [0] } :=
  next_eq_next_iff _ t

theorem exec_exp256_iff (kw0 kw1 : Word) (s t : State) :
    exec (.exp256 kw0 kw1) s = .next t ↔
      t = { s with rk := expand256 kw0 kw1 s.rk, nr := 14, resp := s.resp ++ [0] } :=
  next_eq_next_iff _ t

theorem exec_enc1_iff (u : Bool) (addr : Nat) (s t : State) :
    exec (.enc1 u addr) s = .next t ↔ t = blockCommand u addr 1 (kernel1 addr) s :=
  next_eq_next_iff _ t

theorem exec_enc4_iff (u : Bool) (addr : Nat) (s t : State) :
    exec (.enc4 u addr) s = .next t ↔ t = blockCommand u addr 4 (kernel4 addr) s :=
  next_eq_next_iff _ t

theorem exec_run_iff (u : Bool) (addr n : Nat) (s t : State) :
    exec (.run u addr n) s = .next t ↔ t = blockCommand u addr n (runBody addr n) s :=
  next_eq_next_iff _ t

theorem exec_dbl_iff (x : Word) (s t : State) :
    exec (.dbl x) s = .next t ↔ t = s.respond (doubleResponse (double x)) :=
  next_eq_next_iff _ t

end Sys2Proof.Machine
end

