-- ==== Sys2Proof/Laws/Memory.lean ====
section
/-! SUPPORT. Reads after writes, and that every memory operation keeps the canonical form. -/

namespace Sys2Proof.Machine

/-! ### Reading what was written -/

theorem readByte_insertByte (m : Memory) (a x : Nat) (b : Byte) :
    readByte (insertByte m a b) x = if x = a then b else readByte m x := by
  induction m with
  | nil => simp [insertByte, readByte, eq_comm]
  | cons c m ih =>
    obtain ⟨k, v⟩ := c
    simp only [insertByte]
    split
    · simp [readByte, eq_comm]
    · split
      · rename_i h
        subst h
        by_cases hx : a = x <;> simp [readByte, hx, eq_comm]
      · rename_i h1 h2
        simp only [readByte, ih]
        by_cases hk : k = x
        · have : ¬ x = a := by omega
          simp [hk, this]
        · simp [hk]

theorem readByte_filter (m : Memory) (a x : Nat) :
    readByte (m.filter fun c => c.1 != a) x = if x = a then unwrittenByte else readByte m x := by
  induction m with
  | nil => simp [readByte]
  | cons c m ih =>
    obtain ⟨k, v⟩ := c
    by_cases hk : k = a
    · subst hk
      simp only [bne_self_eq_false, Bool.false_eq_true, not_false_eq_true, List.filter_cons_of_neg, ih, readByte]
      by_cases hx : x = k
      · simp [hx]
      · simp [hx, Ne.symm hx]
    · simp only [List.filter_cons, bne_iff_ne, ne_eq, hk, not_false_eq_true, if_true, readByte, ih]
      by_cases hx : k = x
      · have : ¬ x = a := by omega
        simp [hx, this]
      · simp [hx]

/-- Reading after a byte write: the byte written there, every other byte as before. -/
theorem readByte_writeByte (m : Memory) (a x : Nat) (b : Byte) :
    readByte (writeByte m a b) x = if x = a then b else readByte m x := by
  unfold writeByte
  split
  · rename_i h
    rw [readByte_filter, h]
  · rw [readByte_insertByte]

/-- Byte `k` of the block read at `a` is the byte at `a + k` (R41). -/
@[simp] theorem byteOf_readBlock (m : Memory) (a k : Nat) (hk : k < 16) :
    byteOf (readBlock m a) k = readByte m (a + k) := byteOf_wordOfBytes _ k hk

theorem readByte_foldl_writeByte (m : Memory) (a x n : Nat) (W : Word) :
    readByte ((List.range n).foldl (fun m k => writeByte m (a + k) (byteOf W k)) m) x =
      if a ≤ x ∧ x < a + n then byteOf W (x - a) else readByte m x := by
  induction n with
  | zero => simp
  | succ n ih =>
    rw [List.range_succ, List.foldl_append, List.foldl_cons, List.foldl_nil, readByte_writeByte, ih]
    by_cases h1 : x = a + n
    · have h2 : a ≤ x ∧ x < a + (n + 1) := by omega
      have h3 : x - a = n := by omega
      rw [if_pos h1, if_pos h2, h3]
    · by_cases h2 : a ≤ x ∧ x < a + n
      · have h3 : a ≤ x ∧ x < a + (n + 1) := by omega
        rw [if_neg h1, if_pos h2, if_pos h3]
      · have h3 : ¬ (a ≤ x ∧ x < a + (n + 1)) := by omega
        rw [if_neg h1, if_neg h2, if_neg h3]

/-- Reading a byte after a block write (R41, R43): the block's bytes there, every other byte as
before. -/
theorem readByte_writeBlock (m : Memory) (a x : Nat) (W : Word) :
    readByte (writeBlock m a W) x = if a ≤ x ∧ x < a + 16 then byteOf W (x - a) else readByte m x :=
  readByte_foldl_writeByte m a x 16 W

/-- The block at an address is fixed by its 16 bytes. -/
theorem readBlock_congr {m m' : Memory} {a : Nat}
    (h : ∀ x, a ≤ x → x < a + 16 → readByte m x = readByte m' x) : readBlock m a = readBlock m' a :=
  wordOfBytes_congr fun k hk => h (a + k) (by omega) (by omega)

/-- Reading the block just written. -/
@[simp] theorem readBlock_writeBlock_same (m : Memory) (a : Nat) (W : Word) :
    readBlock (writeBlock m a W) a = W := by
  apply word_ext_bytes
  intro k hk
  have h : a ≤ a + k ∧ a + k < a + 16 := by omega
  rw [byteOf_readBlock _ _ _ hk, readByte_writeBlock, if_pos h, Nat.add_sub_cancel_left]

/-- Reading a block that does not meet the block written. -/
theorem readBlock_writeBlock_disjoint (m : Memory) {a a' : Nat} (W : Word)
    (h : a' + 16 ≤ a ∨ a + 16 ≤ a') : readBlock (writeBlock m a W) a' = readBlock m a' := by
  apply readBlock_congr
  intro x h1 h2
  rw [readByte_writeBlock, if_neg (by omega)]

/-! ### The canonical form -/

theorem risesFrom_mono {lo lo' : Nat} {m : Memory} (hle : lo' ≤ lo)
    (h : Memory.risesFrom lo m = true) : Memory.risesFrom lo' m = true := by
  cases m with
  | nil => rfl
  | cons c m =>
    obtain ⟨k, v⟩ := c
    simp only [Memory.risesFrom, Bool.and_eq_true, decide_eq_true_eq] at h ⊢
    exact ⟨⟨⟨by omega, h.1.1.2⟩, h.1.2⟩, h.2⟩

theorem risesFrom_insertByte {m : Memory} {lo a : Nat} {b : Byte} (h : Memory.risesFrom lo m = true)
    (hlo : lo ≤ a) (ha : a < Config.addressSpace) (hb : b ≠ unwrittenByte) :
    Memory.risesFrom lo (insertByte m a b) = true := by
  induction m generalizing lo with
  | nil => simp [insertByte, Memory.risesFrom, hlo, ha, hb]
  | cons c m ih =>
    obtain ⟨k, v⟩ := c
    simp only [Memory.risesFrom, Bool.and_eq_true, decide_eq_true_eq, bne_iff_ne] at h
    obtain ⟨⟨⟨h1, h2⟩, h3⟩, h4⟩ := h
    simp only [insertByte]
    split
    · simp [Memory.risesFrom, hlo, ha, hb, h2, h3, h4]
      omega
    · split
      · rename_i hk
        subst hk
        simp [Memory.risesFrom, hlo, ha, hb, h4]
      · simp [Memory.risesFrom, h1, h2, h3, ih h4 (by omega)]

theorem risesFrom_filter {m : Memory} {lo a : Nat} (h : Memory.risesFrom lo m = true) :
    Memory.risesFrom lo (m.filter fun c => c.1 != a) = true := by
  induction m generalizing lo with
  | nil => rfl
  | cons c m ih =>
    obtain ⟨k, v⟩ := c
    simp only [Memory.risesFrom, Bool.and_eq_true, decide_eq_true_eq] at h
    obtain ⟨⟨⟨h1, h2⟩, h3⟩, h4⟩ := h
    rw [List.filter_cons]
    split
    · simp [Memory.risesFrom, h1, h2, h3, ih h4]
    · exact risesFrom_mono (by omega) (ih h4)

/-- A byte write inside the address space keeps the canonical form. -/
theorem wf_writeByte {m : Memory} {a : Nat} (b : Byte) (h : Memory.wf m = true)
    (ha : a < Config.addressSpace) : Memory.wf (writeByte m a b) = true := by
  unfold writeByte
  split
  · exact risesFrom_filter h
  · rename_i hb
    exact risesFrom_insertByte h (Nat.zero_le a) ha hb

theorem wf_foldl_writeByte {m : Memory} {a n : Nat} (W : Word) (h : Memory.wf m = true)
    (ha : a + n ≤ Config.addressSpace) :
    Memory.wf ((List.range n).foldl (fun m k => writeByte m (a + k) (byteOf W k)) m) = true := by
  induction n with
  | zero => exact h
  | succ n ih =>
    rw [List.range_succ, List.foldl_append]
    exact wf_writeByte _ (ih (by omega)) (by omega)

/-- A block write inside the address space keeps the canonical form. -/
theorem wf_writeBlock {m : Memory} {a : Nat} (W : Word) (h : Memory.wf m = true)
    (ha : a + 16 ≤ Config.addressSpace) : Memory.wf (writeBlock m a W) = true :=
  wf_foldl_writeByte W h ha

/-- A listed address lies in the space. -/
theorem lt_addressSpace_of_mem {m : Memory} {lo : Nat} (h : Memory.risesFrom lo m = true) {c : Host.Cell}
    (hc : c ∈ m) : c.1 < Config.addressSpace := by
  induction m generalizing lo with
  | nil => cases hc
  | cons d m ih =>
    obtain ⟨k, v⟩ := d
    simp only [Memory.risesFrom, Bool.and_eq_true, decide_eq_true_eq] at h
    rcases List.mem_cons.1 hc with rfl | hc
    · exact h.1.1.2
    · exact ih h.2 hc

theorem readByte_of_lt {m : Memory} {lo x : Nat} (h : Memory.risesFrom lo m = true) (hx : x < lo) :
    readByte m x = unwrittenByte := by
  induction m generalizing lo with
  | nil => rfl
  | cons c m ih =>
    obtain ⟨k, v⟩ := c
    simp only [Memory.risesFrom, Bool.and_eq_true, decide_eq_true_eq] at h
    rw [readByte, if_neg (by omega)]
    exact ih h.2 (by omega)

/-- Two memories in the canonical form that read the same at every address are the same data. -/
theorem memory_ext {m m' : Memory} {lo : Nat} (h : Memory.risesFrom lo m = true)
    (h' : Memory.risesFrom lo m' = true) (hr : ∀ x, readByte m x = readByte m' x) : m = m' := by
  induction m generalizing lo m' with
  | nil =>
    cases m' with
    | nil => rfl
    | cons c' m' =>
      obtain ⟨k', v'⟩ := c'
      simp only [Memory.risesFrom, Bool.and_eq_true, bne_iff_ne] at h'
      have := hr k'
      simp only [readByte, if_true] at this
      exact absurd this.symm h'.1.2
  | cons c m ih =>
    obtain ⟨k, v⟩ := c
    simp only [Memory.risesFrom, Bool.and_eq_true, decide_eq_true_eq, bne_iff_ne] at h
    obtain ⟨⟨⟨h1, h2⟩, h3⟩, h4⟩ := h
    cases m' with
    | nil =>
      have := hr k
      simp only [readByte, if_true] at this
      exact absurd this h3
    | cons c' m' =>
      obtain ⟨k', v'⟩ := c'
      simp only [Memory.risesFrom, Bool.and_eq_true, decide_eq_true_eq, bne_iff_ne] at h'
      obtain ⟨⟨⟨h1', h2'⟩, h3'⟩, h4'⟩ := h'
      have hk : k = k' := by
        rcases Nat.lt_trichotomy k k' with hlt | heq | hlt
        · have := hr k
          rw [readByte, if_pos rfl, readByte, if_neg (by omega), readByte_of_lt h4' (by omega)] at this
          exact absurd this h3
        · exact heq
        · have := hr k'
          rw [readByte, if_neg (by omega), readByte_of_lt h4 (by omega), readByte, if_pos rfl] at this
          exact absurd this.symm h3'
      subst hk
      have hv : v = v' := by simpa [readByte] using hr k
      subst hv
      congr 1
      apply ih h4 h4'
      intro x
      by_cases hx : k = x
      · subst hx
        rw [readByte_of_lt h4 (by omega), readByte_of_lt h4' (by omega)]
      · simpa [readByte, hx] using hr x

/-! ### A mixture of two memories (R206) -/

theorem readByte_of_not_mem {m : Memory} {x : Nat} (h : ∀ c ∈ m, c.1 ≠ x) :
    readByte m x = unwrittenByte := by
  induction m with
  | nil => rfl
  | cons c m ih =>
    obtain ⟨k, v⟩ := c
    rw [readByte, if_neg (h (k, v) (by simp))]
    exact ih fun d hd => h d (by simp [hd])

theorem readByte_foldl_pick (f : Nat → Byte) (l m : Memory) (x : Nat) :
    readByte (l.foldl (fun m c => writeByte m c.1 (f c.1)) m) x =
      if ∃ c ∈ l, c.1 = x then f x else readByte m x := by
  induction l generalizing m with
  | nil => simp
  | cons c l ih =>
    rw [List.foldl_cons, ih, readByte_writeByte]
    by_cases h1 : ∃ d ∈ l, d.1 = x
    · have h2 : ∃ d ∈ c :: l, d.1 = x := by
        obtain ⟨d, hd, he⟩ := h1
        exact ⟨d, by simp [hd], he⟩
      rw [if_pos h1, if_pos h2]
    · by_cases hc : x = c.1
      · have h2 : ∃ d ∈ c :: l, d.1 = x := ⟨c, by simp, hc.symm⟩
        rw [if_neg h1, if_pos hc, if_pos h2, ← hc]
      · have h2 : ¬ ∃ d ∈ c :: l, d.1 = x := by
          rintro ⟨d, hd, he⟩
          rcases List.mem_cons.1 hd with rfl | hd
          · exact hc he.symm
          · exact h1 ⟨d, hd, he⟩
        rw [if_neg h1, if_neg hc, if_neg h2]

/-- Every byte of the mixture is the new one where it is picked and the old one elsewhere. -/
theorem readByte_mixMemory (pick : Nat → Bool) (old new : Memory) (x : Nat) :
    readByte (mixMemory pick old new) x = if pick x then readByte new x else readByte old x := by
  rw [mixMemory, readByte_foldl_pick (fun a => if pick a then readByte new a else readByte old a)]
  split
  · rfl
  · rename_i h
    have ho : readByte old x = unwrittenByte :=
      readByte_of_not_mem fun c hc he => h ⟨c, by simp [hc], he⟩
    have hn : readByte new x = unwrittenByte :=
      readByte_of_not_mem fun c hc he => h ⟨c, by simp [hc], he⟩
    rw [ho, hn, ite_self]

theorem wf_foldl_pick (f : Nat → Byte) (l : Memory) {m : Memory} (h : Memory.wf m = true)
    (hl : ∀ c ∈ l, c.1 < Config.addressSpace) :
    Memory.wf (l.foldl (fun m c => writeByte m c.1 (f c.1)) m) = true := by
  induction l generalizing m with
  | nil => exact h
  | cons c l ih =>
    rw [List.foldl_cons]
    exact ih (wf_writeByte _ h (hl c (by simp))) fun d hd => hl d (by simp [hd])

/-- The mixture keeps the canonical form. -/
theorem wf_mixMemory (pick : Nat → Bool) {old new : Memory} (ho : Memory.wf old = true)
    (hn : Memory.wf new = true) : Memory.wf (mixMemory pick old new) = true := by
  apply wf_foldl_pick (fun a => if pick a then readByte new a else readByte old a) _ hn
  intro c hc
  rcases List.mem_append.1 hc with hc | hc
  · exact lt_addressSpace_of_mem ho hc
  · exact lt_addressSpace_of_mem hn hc

end Sys2Proof.Machine
end

