-- ==== Sys2Proof/Laws/Operands.lean ====
section
/-! SUPPORT. What the checks of a block command say, and everything a block command can do. -/

namespace Sys2Proof.Machine

theorem region_has_iff (r : Region) (a : Nat) : r.has a = true ↔ r.base ≤ a ∧ a < r.base + r.size := by
  simp [Region.has]

theorem inBuf_nil (a : Nat) : inBuf [] a = false := rfl

theorem inBuf_cons (r : Region) (rs : List Region) (a : Nat) :
    inBuf (r :: rs) a = true ↔ r.has a = true ∨ inBuf rs a = true := by
  simp [inBuf]

/-- The coverage test says what R46 says: every address of the range is in `Buf`. -/
theorem covers_iff (rs : List Region) (lo hi : Nat) :
    covers rs lo hi = true ↔ ∀ a, lo ≤ a → a < hi → inBuf rs a = true := by
  induction rs generalizing lo hi with
  | nil =>
    simp only [covers, decide_eq_true_eq, inBuf_nil, Bool.false_eq_true]
    constructor
    · intro h a h1 h2
      omega
    · intro h
      by_contra hc
      exact h lo (Nat.le_refl lo) (by omega)
  | cons r rs ih =>
    simp only [covers, Bool.and_eq_true, ih, inBuf_cons, region_has_iff]
    constructor
    · intro ⟨h1, h2⟩ a hlo hhi
      by_cases ha : a < r.base
      · exact .inr (h1 a hlo (by omega))
      · by_cases ha' : r.base + r.size ≤ a
        · exact .inr (h2 a (by omega) hhi)
        · exact .inl ⟨by omega, by omega⟩
    · intro h
      refine ⟨fun a hlo hhi => ?_, fun a hlo hhi => ?_⟩
      · exact (h a hlo (by omega)).resolve_left fun hr => by omega
      · exact (h a (by omega) hhi).resolve_left fun hr => by omega

/-- The bounds check of R46 and R47 in full. -/
theorem bufferAdmitted_iff (buf : List Region) (addr n : Nat) :
    bufferAdmitted buf addr n = true ↔
      addr + 16 * n ≤ 2 ^ 32 ∧ ∀ a, addr ≤ a → a < addr + 16 * n → inBuf buf a = true := by
  rw [bufferAdmitted, Bool.and_eq_true, decide_eq_true_eq, covers_iff]
  rfl

/-- The alignment check of R44. -/
theorem alignmentAdmitted_iff (u : Bool) (addr : Nat) :
    alignmentAdmitted u addr = true ↔ u = true ∨ addr % 16 = 0 := by
  simp [alignmentAdmitted, Config.alignBytes]

/-- The context check of R126. -/
theorem validContext_iff (nr : BitVec 4) : validContext nr = true ↔ nr = 10 ∨ nr = 14 := by
  simp [validContext]

/-- The checks pass exactly under the conditions of R184. -/
theorem blockCheck_eq_none_iff (s : State) (u : Bool) (addr n : Nat) :
    blockCheck s u addr n = none ↔
      validContext s.nr = true ∧
        (n = 0 ∨ (alignmentAdmitted u addr = true ∧ bufferAdmitted s.buf addr n = true)) := by
  unfold blockCheck
  cases validContext s.nr <;> cases alignmentAdmitted u addr <;> cases bufferAdmitted s.buf addr n <;>
    by_cases h : n = 0 <;> simp [h]

/-- A failed check of a block command never names an illegal header. -/
theorem blockCheck_ne_illegalCmd (s : State) (u : Bool) (addr n : Nat) :
    blockCheck s u addr n ≠ some .illegalCmd := by
  unfold blockCheck
  split
  · simp
  · split
    · simp
    · split
      · simp
      · split <;> simp

/-- Everything a block command can do: fault on the first failed check, or run its body. -/
theorem blockCommand_cases (u : Bool) (addr n : Nat) (body : BlockBody) (s : State) :
    (∃ c, blockCheck s u addr n = some c ∧ blockCommand u addr n body s = raiseFault c s) ∨
      (blockCheck s u addr n = none ∧
        blockCommand u addr n body s = { s with mem := (blockPort body s).mem }.respondOk) := by
  unfold blockCommand
  cases h : blockCheck s u addr n with
  | some c => exact .inl ⟨c, rfl, rfl⟩
  | none => exact .inr ⟨rfl, rfl⟩

/-- A block command whose checks pass. -/
theorem blockCommand_of_none {u : Bool} {addr n : Nat} {s : State} (body : BlockBody)
    (h : blockCheck s u addr n = none) :
    blockCommand u addr n body s = { s with mem := (blockPort body s).mem }.respondOk := by
  rw [blockCommand, h]

/-- A block command one of whose checks fails. -/
theorem blockCommand_of_some {u : Bool} {addr n : Nat} {s : State} {c : FaultCode} (body : BlockBody)
    (h : blockCheck s u addr n = some c) : blockCommand u addr n body s = raiseFault c s := by
  rw [blockCommand, h]

/-- No block command writes the round-key RAM (R22). -/
@[simp] theorem blockCommand_rk (u : Bool) (addr n : Nat) (body : BlockBody) (s : State) :
    (blockCommand u addr n body s).rk = s.rk := by
  rcases blockCommand_cases u addr n body s with ⟨c, _, h⟩ | ⟨_, h⟩ <;> rw [h] <;> rfl

/-- No block command writes `NR` (R22). -/
@[simp] theorem blockCommand_nr (u : Bool) (addr n : Nat) (body : BlockBody) (s : State) :
    (blockCommand u addr n body s).nr = s.nr := by
  rcases blockCommand_cases u addr n body s with ⟨c, _, h⟩ | ⟨_, h⟩ <;> rw [h] <;> rfl

@[simp] theorem blockCommand_frame (u : Bool) (addr n : Nat) (body : BlockBody) (s : State) :
    (blockCommand u addr n body s).frame = s.frame := by
  rcases blockCommand_cases u addr n body s with ⟨c, _, h⟩ | ⟨_, h⟩ <;> rw [h] <;> rfl

@[simp] theorem blockCommand_cmd (u : Bool) (addr n : Nat) (body : BlockBody) (s : State) :
    (blockCommand u addr n body s).cmd = s.cmd := by
  rcases blockCommand_cases u addr n body s with ⟨c, _, h⟩ | ⟨_, h⟩ <;> rw [h] <;> rfl

@[simp] theorem blockCommand_buf (u : Bool) (addr n : Nat) (body : BlockBody) (s : State) :
    (blockCommand u addr n body s).buf = s.buf := by
  rcases blockCommand_cases u addr n body s with ⟨c, _, h⟩ | ⟨_, h⟩ <;> rw [h] <;> rfl

@[simp] theorem blockCommand_host (u : Bool) (addr n : Nat) (body : BlockBody) (s : State) :
    (blockCommand u addr n body s).host = s.host := by
  rcases blockCommand_cases u addr n body s with ⟨c, _, h⟩ | ⟨_, h⟩ <;> rw [h] <;> rfl

@[simp] theorem blockCommand_draws (u : Bool) (addr n : Nat) (body : BlockBody) (s : State) :
    (blockCommand u addr n body s).draws = s.draws := by
  rcases blockCommand_cases u addr n body s with ⟨c, _, h⟩ | ⟨_, h⟩ <;> rw [h] <;> rfl

end Sys2Proof.Machine
end

