-- ==== Sys2Proof/Laws/Kernels.lean ====
section
/-! SUPPORT. What the kernels do to the memory port, and that they keep the canonical form. -/

namespace Sys2Proof.Machine

/-- The single-block path on the memory (R128). -/
theorem kernel1_mem (a nr : Nat) (rk : Nat → Word) (p : Port) :
    (kernel1 a nr rk p).mem = writeBlock p.mem a (cipher nr rk (readBlock p.mem a)) := rfl

/-- The accesses of the single-block path (R43). -/
theorem kernel1_log (a nr : Nat) (rk : Nat → Word) (p : Port) :
    (kernel1 a nr rk p).log = p.log ++ [⟨.read, a⟩] ++ [⟨.write, a⟩] := rfl

/-- The lane registers of the 4-way kernel after the last round, from the memory it reads (R131). -/
def kernel4Lanes (a nr : Nat) (rk : Nat → Word) (m : Memory) : Vector Word 4 :=
  encryptLanes nr rk #v[readBlock m (blockAddr a 0), readBlock m (blockAddr a 1),
    readBlock m (blockAddr a 2), readBlock m (blockAddr a 3)]

/-- The 4-way kernel on the memory (R131). -/
theorem kernel4_mem (a nr : Nat) (rk : Nat → Word) (p : Port) :
    (kernel4 a nr rk p).mem =
      writeBlock (writeBlock (writeBlock (writeBlock p.mem (blockAddr a 0) (kernel4Lanes a nr rk p.mem)[0])
        (blockAddr a 1) (kernel4Lanes a nr rk p.mem)[1]) (blockAddr a 2) (kernel4Lanes a nr rk p.mem)[2])
        (blockAddr a 3) (kernel4Lanes a nr rk p.mem)[3] := rfl

theorem wf_kernel1 {a : Nat} (nr : Nat) (rk : Nat → Word) {p : Port} (h : Memory.wf p.mem = true)
    (ha : a + 16 ≤ Config.addressSpace) : Memory.wf (kernel1 a nr rk p).mem = true :=
  wf_writeBlock _ h ha

theorem wf_kernel4 {a : Nat} (nr : Nat) (rk : Nat → Word) {p : Port} (h : Memory.wf p.mem = true)
    (ha : a + 64 ≤ Config.addressSpace) : Memory.wf (kernel4 a nr rk p).mem = true := by
  rw [kernel4_mem]
  simp only [blockAddr, Config.blockBytes]
  exact wf_writeBlock _ (wf_writeBlock _ (wf_writeBlock _ (wf_writeBlock _ h (by omega)) (by omega))
    (by omega)) (by omega)

theorem wf_runGroups {addr q : Nat} (nr : Nat) (rk : Nat → Word) {p : Port} (h : Memory.wf p.mem = true)
    (ha : addr + 64 * q ≤ Config.addressSpace) : Memory.wf (runGroups addr q nr rk p).mem = true := by
  unfold runGroups
  induction q with
  | zero => exact h
  | succ q ih =>
    rw [List.range_succ, List.foldl_append]
    exact wf_kernel4 nr rk (ih (by omega)) (by omega)

theorem wf_runTail {addr q m : Nat} (nr : Nat) (rk : Nat → Word) {p : Port} (h : Memory.wf p.mem = true)
    (ha : addr + 64 * q + 16 * m ≤ Config.addressSpace) :
    Memory.wf (runTail addr q m nr rk p).mem = true := by
  unfold runTail
  induction m with
  | zero => exact h
  | succ m ih =>
    rw [List.range_succ, List.foldl_append]
    exact wf_kernel1 nr rk (ih (by omega)) (by omega)

/-- The sequencer keeps the canonical form on a buffer that ends inside the address space. -/
theorem wf_runBody {addr n : Nat} (nr : Nat) (rk : Nat → Word) {p : Port} (h : Memory.wf p.mem = true)
    (ha : addr + 16 * n ≤ Config.addressSpace) : Memory.wf (runBody addr n nr rk p).mem = true := by
  unfold runBody Config.nway
  exact wf_runTail nr rk (wf_runGroups nr rk h (by omega)) (by omega)

end Sys2Proof.Machine
end

