-- ==== Sys2Proof/Laws/Moves.lean ====
section
/-! SUPPORT. Everything a move of the core, a reset inside a command, and a step can do. -/

namespace Sys2Proof.Machine

/-- A faulted core makes no move (R187). -/
theorem coreMove_of_faulted {s : State} (h : s.flt ≠ 0) : coreMove s = .fault .halted := by
  rw [coreMove, if_pos ((faulted_iff s).2 h)]

/-- The move of a core that is not faulted, by what the decoder reads (R61, R74, R208). -/
theorem coreMove_of_not_faulted {s : State} (h : s.flt = 0) :
    coreMove s =
      match decode (s.frame ++ s.cmd) with
      | .ok (i, rest) => exec i { s with frame := [], cmd := rest }
      | .error .noHeader => .fault .awaitingHeader
      | .error (.illegalHeader _) =>
        .next (raiseFault .illegalCmd { s with frame := [], cmd := (s.frame ++ s.cmd).drop 1 })
      | .error (.payloadMissing _) =>
        if s.cmd = [] then .fault .awaitingPayload
        else .next { s with frame := s.frame ++ s.cmd, cmd := [] } :=
  if_neg (by rw [(faulted_eq_false s).2 h]; decide)

/-- Everything a move of the core that leads to a next state can have done. -/
theorem coreMove_next_cases {s t : State} (h : coreMove s = .next t) :
    s.flt = 0 ∧
      ((∃ i rest, decode (s.frame ++ s.cmd) = .ok (i, rest) ∧
          exec i { s with frame := [], cmd := rest } = .next t) ∨
        (∃ w, decode (s.frame ++ s.cmd) = .error (.illegalHeader w) ∧
          t = raiseFault .illegalCmd { s with frame := [], cmd := (s.frame ++ s.cmd).drop 1 }) ∨
        (∃ op, decode (s.frame ++ s.cmd) = .error (.payloadMissing op) ∧ s.cmd ≠ [] ∧
          t = { s with frame := s.frame ++ s.cmd, cmd := [] })) := by
  by_cases hf : s.flt = 0
  · refine ⟨hf, ?_⟩
    rw [coreMove_of_not_faulted hf] at h
    split at h
    · rename_i i rest hd
      exact .inl ⟨i, rest, hd, h⟩
    · cases h
    · rename_i w hd
      cases h
      exact .inr (.inl ⟨w, hd, rfl⟩)
    · rename_i op hd
      split at h
      · cases h
      · rename_i hc
        cases h
        exact .inr (.inr ⟨op, hd, hc, rfl⟩)
  · rw [coreMove_of_faulted hf] at h
    cases h

/-- Everything a reset inside a command can leave: the command's words taken only in part and nothing
else, or the whole command taken and memory and the round-key RAM mixtures of old and new; in both
cases the core is then reset and no response is sent (R206). -/
theorem abandonMove_cases (s t : State) :
    (∃ k, abandonMove s t = { s with cmd := s.cmd.drop k }.applyReset) ∨
      ∃ pickKey pick, abandonMove s t =
        { s with cmd := t.cmd, rk := mixKeys pickKey s.rk t.rk, mem := mixMemory pick s.mem t.mem }.applyReset := by
  unfold abandonMove
  dsimp only
  split
  · exact .inl ⟨_, rfl⟩
  · exact .inr ⟨_, _, rfl⟩

/-- With nothing left for the host to do, a step is a move of the core. -/
theorem step_of_host_nil {s : State} (h : s.host = []) : step s = coreMove s := by
  rw [step, nextMove, h]

/-- With a host action to come, a step is that action. -/
theorem step_of_host_cons {s : State} {a : HostAction} {rest : List HostAction} (h : s.host = a :: rest) :
    step s = .next (hostMove a { s with host := rest }) := by
  rw [step, nextMove, h]

/-- Everything a step that leads to a next state can have done. -/
theorem step_next_cases {s t : State} (h : step s = .next t) :
    (s.host = [] ∧ coreMove s = .next t) ∨
      ∃ a rest, s.host = a :: rest ∧ t = hostMove a { s with host := rest } := by
  cases hh : s.host with
  | nil => exact .inl ⟨rfl, by rw [← step_of_host_nil hh, h]⟩
  | cons a rest =>
    rw [step_of_host_cons hh] at h
    cases h
    exact .inr ⟨a, rest, rfl, rfl⟩

/-- Every command answers a next state: no command is refused, and a fault the core raises is a next
state. -/
theorem exec_next (i : Instr) (s : State) : ∃ t, exec i s = .next t := by
  cases i <;> exact ⟨_, rfl⟩

end Sys2Proof.Machine
end

