-- ==== Sys2Proof/Laws/PerInstr.lean ====
section
/-! SUPPORT. Per-instruction facts about the encoding. -/

namespace Sys2Proof

/-- The header word carries the opcode, the variant bit and nothing else (R62). -/
theorem selectOpcode_headerWord (u : Bool) :
    selectOpcode (headerWord 0x01 false) = some .exp128 ∧
    selectOpcode (headerWord 0x02 false) = some .exp256 ∧
    selectOpcode (headerWord 0x03 u) = some .enc1 ∧
    selectOpcode (headerWord 0x04 u) = some .enc4 ∧
    selectOpcode (headerWord 0x05 u) = some .run ∧
    selectOpcode (headerWord 0x06 false) = some .dbl := by
  cases u <;> decide

/-- An operand takes four channel words (R70). -/
theorem length_operandWords (W : Word) : (operandWords W).length = 4 := by simp [operandWords]

end Sys2Proof

namespace Sys2Proof.Laws.EncodedForm

/-- The words of a command are a legal header of its own row and as many payload words as the row
calls for (R64, R71, R78). -/
def Statement (i : Instr) : Prop :=
  ∃ h ps op, encode i = h :: ps ∧ selectOpcode h = some op ∧ ps.length = payloadWords op

theorem exp128 (kw0 : Word) : Statement (.exp128 kw0) :=
  ⟨_, _, .exp128, rfl, (selectOpcode_headerWord false).1, length_operandWords kw0⟩

theorem exp256 (kw0 kw1 : Word) : Statement (.exp256 kw0 kw1) :=
  ⟨_, _, .exp256, rfl, (selectOpcode_headerWord false).2.1, by
    rw [List.length_append, length_operandWords, length_operandWords]; rfl⟩

theorem enc1 (u : Bool) (addr : Nat) : Statement (.enc1 u addr) :=
  ⟨_, _, .enc1, rfl, (selectOpcode_headerWord u).2.2.1, rfl⟩

theorem enc4 (u : Bool) (addr : Nat) : Statement (.enc4 u addr) :=
  ⟨_, _, .enc4, rfl, (selectOpcode_headerWord u).2.2.2.1, rfl⟩

theorem run (u : Bool) (addr n : Nat) : Statement (.run u addr n) :=
  ⟨_, _, .run, rfl, (selectOpcode_headerWord u).2.2.2.2.1, rfl⟩

theorem dbl (x : Word) : Statement (.dbl x) :=
  ⟨_, _, .dbl, rfl, (selectOpcode_headerWord false).2.2.2.2.2, length_operandWords x⟩

end Sys2Proof.Laws.EncodedForm
end

