-- ==== Sys2Proof/Tests/Slice0.lean ====
section
/-! SUPPORT. Small tests, and a witness for the hypotheses of each statement of the obligations.
Expected values are those of 95_test_vectors.md and 96_test_vector_tables.md (named V, K, E, Q, P as
there), or written out by hand from the encodings of 30_encoding.md. -/

namespace Sys2Proof.Tests

open Sys2Proof.Machine

set_option Elab.async false

/-! ### Helpers -/

/-- A block written as the spec writes byte sequences, byte 0 first. -/
def blk (v : Word) : Word := wordOfBytes fun k => byteOf v (15 - k)

/-- The state a command leads to. -/
def after (i : Instr) (s : State) : State :=
  match exec i s with
  | .next t => t
  | _ => s

/-- The state a step leads to. -/
def stepped (s : State) : State :=
  match step s with
  | .next t => t
  | _ => s

/-- The state with a block of memory set. -/
def put (a : Nat) (W : Word) (s : State) : State := { s with mem := writeBlock s.mem a W }

/-- The FIPS 197 C.1 key, the first half of the C.3 key, and the second half. -/
def key0 : Word := blk 0x000102030405060708090a0b0c0d0e0f
def key1 : Word := blk 0x101112131415161718191a1b1c1d1e1f

/-- Block B0 of section 3.5 and its ciphertext under C128. -/
def b0 : Word := blk 0x00112233445566778899aabbccddeeff
def c0 : Word := blk 0x69c4e0d86a7b0430d8cdb78070b4c55a

/-- The contexts C128 and C256 of section 3.5, with its `Buf`. -/
def c128 : State :=
  { State.reset with rk := expand128 key0 State.reset.rk, nr := 10, buf := [⟨0x1000, 0x1000⟩] }
def c256 : State :=
  { State.reset with rk := expand256 key0 key1 State.reset.rk, nr := 14, buf := [⟨0x1000, 0x1000⟩] }

/-- C128 with `Buf` the whole address space, and with a fault recorded. -/
def wide : State := { c128 with buf := [⟨0, 2 ^ 32⟩] }
def faultedState : State := { c128 with flt := 3 }

/-- Blocks B0 to B3 of section 3.5 at an address. -/
def putAll (a : Nat) (s : State) : State :=
  put (a + 48) (blk 0x000102030405060708090a0b0c0d0e0f) (put (a + 32) (BitVec.allOnes 128)
    (put (a + 16) 0 (put a b0 s)))

theorem exec_after (i : Instr) (s : State) : exec i s = .next (after i s) := by cases i <;> rfl

/-- The conditions of a block command, from the executable check. -/
theorem admitted {s : State} {u : Bool} {addr n : Nat} (h : blockCheck s u addr n = none) :
    isAdmitted s u addr n := by
  obtain ⟨h1, h2⟩ := (blockCheck_eq_none_iff s u addr n).1 h
  refine ⟨(validContext_iff _).1 h1, h2.imp id fun h => ?_⟩
  exact ⟨(alignmentAdmitted_iff u addr).1 h.1, (bufferAdmitted_iff _ _ _).1 h.2⟩

/-- The conditions fail where the executable check does. -/
theorem not_admitted {s : State} {u : Bool} {addr n : Nat} {c : FaultCode}
    (h : blockCheck s u addr n = some c) : ¬ isAdmitted s u addr n := by
  rintro ⟨h1, h2⟩
  have : blockCheck s u addr n = none := (blockCheck_eq_none_iff s u addr n).2
    ⟨(validContext_iff _).2 h1, h2.imp id fun h =>
      ⟨(alignmentAdmitted_iff u addr).2 h.1, (bufferAdmitted_iff _ _ _).2 h.2⟩⟩
  rw [h] at this
  cases this

/-! ### Well-formedness: each check refuses a term it must refuse (R67, R68) -/

theorem test_addressFits_enc1 :
    WellFormed (.enc1 false (2 ^ 32)) = false ∧ WellFormed (.enc1 true 0xFFFFFFFF) = true := by decide
theorem test_addressFits_enc4 :
    WellFormed (.enc4 true (2 ^ 32)) = false ∧ WellFormed (.enc4 false 0xFFFFFFFF) = true := by decide
theorem test_addressFits_run :
    WellFormed (.run false (2 ^ 32) 1) = false ∧ WellFormed (.run true 0xFFFFFFFF 1) = true := by decide
theorem test_countFits_run :
    WellFormed (.run false 0 (2 ^ 32)) = false ∧ WellFormed (.run false 0 0xFFFFFFFF) = true := by decide

/-! ### Decoding (section 3.8, and R65 to R69 word by word) -/

theorem test_decode_exp128 :
    decode [0x00000001, 0x03020100, 0x07060504, 0x0B0A0908, 0x0F0E0D0C, 0x00000006] =
      .ok (.exp128 key0, [0x00000006]) := by decide +kernel
theorem test_decode_exp256 :
    decode [0x00000002, 0x03020100, 0x07060504, 0x0B0A0908, 0x0F0E0D0C, 0x13121110, 0x17161514,
      0x1B1A1918, 0x1F1E1D1C] = .ok (.exp256 key0 key1, []) := by decide +kernel
theorem test_decode_enc1 : decode [0x00000003, 0x00001000] = .ok (.enc1 false 0x1000, []) := by decide
theorem test_decode_enc1_u : decode [0x00000103, 0xFFFFFFF1] = .ok (.enc1 true 0xFFFFFFF1, []) := by decide
theorem test_decode_enc4 : decode [0x00000004, 0x00001FC0] = .ok (.enc4 false 0x1FC0, []) := by decide
theorem test_decode_enc4_u : decode [0x00000104, 0x00001001] = .ok (.enc4 true 0x1001, []) := by decide
theorem test_decode_run :
    decode [0x00000005, 0x00002000, 0x00000007] = .ok (.run false 0x2000 7, []) := by decide
theorem test_decode_run_u :
    decode [0x00000105, 0x00001008, 0x00000002] = .ok (.run true 0x1008 2, []) := by decide
theorem test_decode_dbl :
    decode [0x00000006, 0x00000001, 0x00000000, 0x00000000, 0x80000000] =
      .ok (.dbl 0x80000000000000000000000000000001, []) := by decide +kernel
theorem test_illegal_headers :
    ([0x00000000, 0x00000007, 0x000000FF, 0xFFFFFFFF, 0x00000101, 0x00000102, 0x00000106, 0x00000203,
      0x80000005, 0x00010004, 0x00000100] : List Lane).all fun h =>
        decide (decode [h, 0x00001000, 0x00000001] = .error (.illegalHeader h)) := by decide +kernel
theorem test_payload_missing :
    decode [0x00000005, 0x00002000] = .error (.payloadMissing .run) ∧ decode [] = .error .noHeader := by
  decide
theorem test_encode_run_u : encode (.run true 0x1008 2) = [0x00000105, 0x00001008, 0x00000002] := by decide
theorem test_encode_dbl :
    encode (.dbl 0x80000000000000000000000000000001) =
      [0x00000006, 0x00000001, 0x00000000, 0x00000000, 0x80000000] := by decide +kernel
/-- The table numbers the bits of the header from 0; operand words the table gives no bits are 0. -/
theorem test_decodeTableWord :
    decodeTableWord 32 0x00000105 = some (.run true 0 0) ∧
    decodeTableWord 64 0x00001000_00000003 = some (.enc1 false 0x1000) ∧
    decodeTableWord 32 0x00000106 = none := by decide
theorem test_withFetchWord :
    (stepped (State.reset.withFetchWord 64 0x00001000_00000003)).flt = 2 ∧
    (stepped (State.reset.withFetchWord 64 0x00001000_00000003)).resp = [2] := by decide +kernel

/-! ### The assembler (R76, R77) -/

theorem test_assemble_run_u : assemble "RUN.U 0x1008, 2" = some (.run true 0x1008 2) := by decide +kernel
theorem test_assemble_expand :
    assemble "EXPAND 000102030405060708090a0b0c0d0e0f" = some (.exp128 key0) ∧
    assemble "EXPAND 0001020304050607" = none := by decide +kernel
theorem test_print_dbl :
    printInstr (.dbl 0x85) = "DBL 0x00000000000000000000000000000085" := by decide +kernel

/-! ### The primitives (V1 to V4, section 3.1) -/

theorem test_gmul : gmul 0x57 0x83 = 0xC1 ∧ gmul 0xFF 0xFF = 0x13 ∧ ginv 0x53 = 0xCA := by decide +kernel
theorem test_sbox_table_is_formula : ∀ a : Byte, sbox a = sboxFormula a := by decide +kernel
theorem test_subWord : subWord 0x3C4FCF09 = 0xEB848A01 ∧ subWord 0x0C0D0E0F = 0xFED7AB76 := by
  decide +kernel
theorem test_shiftRows :
    shiftRows (blk 0x000102030405060708090a0b0c0d0e0f) = blk 0x00050a0f04090e03080d02070c01060b := by
  decide +kernel
theorem test_mixColumns :
    mixColumns (blk 0xd4bf5d30e0b452aeb84111f11e2798e5) = blk 0x046681e5e0cb199a48f8d37a2806264c := by
  decide +kernel
theorem test_round :
    round (blk 0x00102030405060708090a0b0c0d0e0f0) (blk 0xd6aa74fdd2af72fadaa678f1d6ab76fe) =
      blk 0x89d810e8855ace682d1843d8cb128fe4 ∧
    finalRound (blk 0x00102030405060708090a0b0c0d0e0f0) (blk 0xd6aa74fdd2af72fadaa678f1d6ab76fe) =
      blk 0xb5f99471dbcf93fe17d6cfa06c61a619 := by decide +kernel
theorem test_fold_assist :
    fold 0x3C4FCF098815F7ABA6D2AE2816157E2B = 0x049DE8A138D227A8B0C7D00316157E2B ∧
    assistRc 0x3C4FCF098815F7ABA6D2AE2816157E2B 0x01 = 0x01EB848B01EB848B01EB848B01EB848B ∧
    assistNoRc 0xDEFC67205F8B1AA5AF25698E1154A39B = 0x1DB085B71DB085B71DB085B71DB085B7 := by
  decide +kernel

/-! ### The commands -/

/-- Table K3; entries 11 to 14 are kept (R24, section 3.3: the key of K7 before). -/
theorem test_exp128 :
    (after (.exp128 key0) c256).rkAt 1 = blk 0xd6aa74fdd2af72fadaa678f1d6ab76fe ∧
    (after (.exp128 key0) c256).rkAt 10 = blk 0x13111d7fe3944a17f307a78b4d2b30c5 ∧
    (after (.exp128 key0) c256).rkAt 14 = blk 0x24fc79ccbf0979e9371ac23c6d68de36 ∧
    (after (.exp128 key0) c256).nr = 10 := by decide +kernel
/-- Table K7. -/
theorem test_exp256 :
    (after (.exp256 key0 key1) c128).rkAt 2 = blk 0xa573c29fa176c498a97fce93a572c09c ∧
    (after (.exp256 key0 key1) c128).rkAt 3 = blk 0x1651a8cd0244beda1a5da4c10640bade ∧
    (after (.exp256 key0 key1) c128).rkAt 14 = blk 0x24fc79ccbf0979e9371ac23c6d68de36 ∧
    (after (.exp256 key0 key1) c128).nr = 14 := by decide +kernel
/-- E2 and E3. -/
theorem test_enc1_u :
    readBlock (after (.enc1 true 0x1004) (put 0x1004 b0 c128)).mem 0x1004 = c0 ∧
    (after (.enc1 true 0x1004) (put 0x1004 b0 c128)).resp = [0] := by decide +kernel
/-- E1 with every byte of memory written out: the byte at the lowest address is byte 0 (R41). -/
theorem test_enc1_byte_order :
    let s := { c128 with mem := [(0x1001, 0x11), (0x1002, 0x22), (0x1003, 0x33), (0x1004, 0x44),
      (0x1005, 0x55), (0x1006, 0x66), (0x1007, 0x77), (0x1008, 0x88), (0x1009, 0x99), (0x100A, 0xAA),
      (0x100B, 0xBB), (0x100C, 0xCC), (0x100D, 0xDD), (0x100E, 0xEE), (0x100F, 0xFF)] }
    ([0x1000, 0x1001, 0x100E, 0x100F].map (readByte (after (.enc1 false 0x1000) s).mem)) =
      [0x69, 0xC4, 0xC5, 0x5A] := by decide +kernel
theorem test_enc1_align :
    after (.enc1 false 0x1004) (put 0x1004 b0 c128) =
      { put 0x1004 b0 c128 with flt := 4, resp := [4] } := by decide +kernel
/-- E5, and E8: the window ends past `Buf`. -/
theorem test_enc4_c256 :
    let t := after (.enc4 false 0x1000) (putAll 0x1000 c256)
    readBlock t.mem 0x1000 = blk 0x8ea2b7ca516745bfeafc49904b496089 ∧
    readBlock t.mem 0x1010 = blk 0xf29000b62a499fd0a9f39a6add2e7780 ∧
    readBlock t.mem 0x1020 = blk 0xe999e41d4ca770da5387117b5d8f57ee ∧
    readBlock t.mem 0x1030 = blk 0x5a6e045708fb7196f02e553d02c3a692 := by decide +kernel
theorem test_enc4_bounds :
    (after (.enc4 false 0x1FD0) c128).flt = 3 ∧ (after (.enc4 false 0x1FC0) c128).flt = 0 := by
  decide +kernel
/-- S3 with `N = 5`: the last block goes through the single-block path, block 5 is untouched. -/
theorem test_run_tail :
    let s := put 0x1050 5 (put 0x1040 (blk 0x04040404040404040404040404040404) c128)
    readBlock (after (.run false 0x1000 5) s).mem 0x1040 = blk 0xe505b8270f24cbdc50cb99b6d3d935fc ∧
    readBlock (after (.run false 0x1000 5) s).mem 0x1050 = 5 ∧
    readBlock (after (.run false 0x1000 5) s).mem 0x1000 = blk 0xc6a13b37878f5b826f4f8162a1c8d879 := by
  decide +kernel
/-- The order of the checks (section 3.9). -/
theorem test_run_check_order :
    (after (.run false 0x3001 5) { c128 with nr := 0 }).flt = 2 ∧
    (after (.run false 0x3001 5) c128).flt = 4 ∧ (after (.run true 0x3001 5) c128).flt = 3 ∧
    (after (.run false 0x1FF0 2) c128).flt = 3 ∧ (after (.run false 0x1003 0) c128).flt = 0 := by
  decide +kernel
/-- Section 3.7. -/
theorem test_dbl :
    (after (.dbl 0x80000000000000000000000000000001) State.reset).resp = [0, 0x85, 0, 0, 0] ∧
    (after (.dbl 0xFEDCBA98765432100123456789ABCDEF) State.reset).resp =
      [0, 0x13579B59, 0x02468ACF, 0xECA86420, 0xFDB97530] := by decide +kernel

/-! ### Steps: P4, P5, an illegal header, the host's moves -/

theorem test_step_dbl :
    stepped { State.reset with host := [.sendWord 6, .sendWord 1] } =
      { State.reset with host := [.sendWord 1], cmd := [6] } ∧
    (stepped { State.reset with cmd := [6, 1, 0, 0, 0x80000000, 3] }).resp = [0, 0x85, 0, 0, 0] ∧
    (stepped { State.reset with cmd := [6, 1, 0, 0, 0x80000000, 3] }).cmd = [3] := by decide +kernel
theorem test_step_illegal_header :
    stepped { c128 with cmd := [0x00000203, 0x1000] } =
      { c128 with cmd := [0x1000], flt := 1, resp := [1] } := by decide +kernel
theorem test_step_partial :
    stepped { c128 with cmd := [5, 0x1000] } = { c128 with frame := [5, 0x1000] } := by decide +kernel

/-! ### Witnesses: for each statement with hypotheses, values that meet them all -/

theorem witness_DecodeOfEncode : WellFormed (.run true 0xFFFFFFFF 0xFFFFFFFF) = true := by decide

theorem witness_EncodeOfDecode :
    decode [0x00000103, 0xFFFFFFFF, 7] = .ok (.enc1 true 0xFFFFFFFF, [7]) := by decide

theorem witness_IllegalHeaders :
    let s := { c128 with cmd := [0x00000106, 5] }
    s.host = [] ∧ s.flt = 0 ∧ s.frame = [] ∧ s.cmd = 0x00000106 :: [5] ∧
      decode (0x00000106 :: [5]) = .error (.illegalHeader 0x00000106) := by decide +kernel

theorem witness_OpcodeRowsExclusive :
    ∃ r ∈ opcodeTable, ∃ r' ∈ opcodeTable, (0x00000103 : Lane) &&& r.mask = r.value ∧
      (0x00000103 : Lane) &&& r'.mask = r'.value := by decide

theorem witness_FieldOperand :
    let b : Nat → Byte := fun k => BitVec.ofNat 8 k
    let x : Fin 4 → Lane := fun j =>
      laneOfBytes (b (4 * j)) (b (4 * j + 1)) (b (4 * j + 2)) (b (4 * j + 3))
    ∀ j : Fin 4, x j = laneOfBytes (b (4 * j)) (b (4 * j + 1)) (b (4 * j + 2)) (b (4 * j + 3)) :=
  fun _ => rfl

theorem witness_ExpandByKeyLength :
    (List.replicate 16 (0 : Byte)).length = 16 ∧ (List.replicate 32 (0 : Byte)).length = 32 ∧
      (List.replicate 15 (0 : Byte)).length ≠ 16 ∧ (List.replicate 15 (0 : Byte)).length ≠ 32 := by decide

/-- Both clauses: the host idle, and the host leaving the turn; part of the command already taken. -/
theorem witness_StepRunsTheDecodedCommand :
    let s := { c128 with frame := [5, 0x1000], cmd := [1, 6] }
    let s' := { s with host := [.coreTurn, .takeWord] }
    s.flt = 0 ∧ WellFormed (.run false 0x1000 1) = true ∧
      decode (s.frame ++ s.cmd) = .ok (.run false 0x1000 1, [6]) ∧ s.host = [] ∧
      s'.flt = 0 ∧ decode (s'.frame ++ s'.cmd) = .ok (.run false 0x1000 1, [6]) ∧
      s'.host = .coreTurn :: [.takeWord] := by decide +kernel

theorem witness_FramingIgnoresArrival :
    c128.host = [] ∧ c128.flt = 0 ∧ ([5, 0x1000] : List Lane) ≠ [] ∧ ([1] : List Lane) ≠ [] ∧
      decode (c128.frame ++ [5, 0x1000]) = .error (.payloadMissing .run) := by decide +kernel

theorem witness_WaitingCoreHasNoStep :
    let s := { c128 with frame := [2, 0, 0, 0, 0, 0, 0, 0] }
    c128.host = [] ∧ c128.flt = 0 ∧ c128.cmd = [] ∧ c128.frame = [] ∧
      s.host = [] ∧ s.flt = 0 ∧ s.cmd = [] ∧ s.frame ≠ [] ∧ frameOpen s.frame = true := by decide +kernel

theorem witness_AssistValues :
    laneOf 0x3C4FCF098815F7ABA6D2AE2816157E2B 3 = 0x3C4FCF09 ∧
      laneOf 0xDEFC67205F8B1AA5AF25698E1154A39B 3 = 0xDEFC6720 := by decide +kernel

/-- Trace T1: the states of the rounds follow each other, and the first one is the whitened block. -/
theorem witness_RoundsAndCipher :
    ∃ x : Nat → Word, (1 : Nat) ≤ 10 ∧ x 0 = b0 ^^^ c128.rkAt 0 ∧
      ∀ r, 1 ≤ r → r < 10 → x r = Machine.round (x (r - 1)) (c128.rkAt r) :=
  ⟨fun r => rounds c128.rkAt 1 r (b0 ^^^ c128.rkAt 0), by decide, rfl, fun r h1 h2 => by
    interval_cases r <;> rfl⟩

/-- The C.1 row at the last block of the address space, unaligned variant. -/
theorem witness_KnownAnswers :
    let s := put 0xFFFFFFF0 b0 wide
    s.flt = 0 ∧ isAligned true 0xFFFFFFF0 ∧ isInBounds s 0xFFFFFFF0 1 ∧
      ∀ k < 16, readByte s.mem (0xFFFFFFF0 + k) =
        (0x00112233445566778899aabbccddeeff : Word).extractLsb' (8 * (15 - k)) 8 :=
  ⟨by decide +kernel, .inl rfl, (bufferAdmitted_iff _ _ _).1 (by decide +kernel), by decide +kernel⟩

/-- The lanes of the round keys, and that those of table K3 and of table K7 meet the recurrence. -/
def lanesOf (s : State) (i : Nat) : Lane := laneOf (s.rkAt (i / 4)) (i % 4)

theorem lanes128 : ∀ i < 44, 4 ≤ i →
    lanesOf c128 i = lanesOf c128 (i - 4) ^^^
      (if i % 4 = 0 then ror32 (subWord (lanesOf c128 (i - 1))) 8 ^^^ (rcon (i / 4)).setWidth 32
       else lanesOf c128 (i - 1)) := by decide +kernel
theorem lanes256 : ∀ i < 60, 8 ≤ i →
    lanesOf c256 i = lanesOf c256 (i - 8) ^^^
      (if i % 8 = 0 then ror32 (subWord (lanesOf c256 (i - 1))) 8 ^^^ (rcon (i / 8)).setWidth 32
       else if i % 8 = 4 then subWord (lanesOf c256 (i - 1)) else lanesOf c256 (i - 1)) := by decide +kernel

theorem witness_ScheduleIsLaneRecurrence :
    (∃ (t : State) (w : Nat → Lane), exec (.exp128 key0) State.reset = .next t ∧
      (∀ i < 4, w i = laneOf key0 i) ∧
      ∀ i, 4 ≤ i → i < 44 → w i = w (i - 4) ^^^
        (if i % 4 = 0 then ror32 (subWord (w (i - 1))) 8 ^^^ (rcon (i / 4)).setWidth 32 else w (i - 1))) ∧
    (∃ (t : State) (w : Nat → Lane), exec (.exp256 key0 key1) State.reset = .next t ∧
      (∀ i < 4, w i = laneOf key0 i ∧ w (i + 4) = laneOf key1 i) ∧
      ∀ i, 8 ≤ i → i < 60 → w i = w (i - 8) ^^^
        (if i % 8 = 0 then ror32 (subWord (w (i - 1))) 8 ^^^ (rcon (i / 8)).setWidth 32
         else if i % 8 = 4 then subWord (w (i - 1)) else w (i - 1))) :=
  ⟨⟨_, lanesOf c128, exec_after _ _, by decide +kernel, fun i h1 h2 => lanes128 i h2 h1⟩,
   ⟨_, lanesOf c256, exec_after _ _, by decide +kernel, fun i h1 h2 => lanes256 i h2 h1⟩⟩

/-- The last block and the last window of the address space, unaligned at its very end, both round
counts. -/
theorem witness_Enc1Result :
    isAdmitted wide false 0xFFFFFFF0 1 ∧ isAdmitted wide true 0xFFFFFFF0 1 ∧ isAdmitted c256 true 0x1FEF 1 :=
  ⟨admitted (by decide +kernel), admitted (by decide +kernel), admitted (by decide +kernel)⟩

theorem witness_Enc4Result :
    isAdmitted c128 false 0x1FC0 4 ∧ isAdmitted c256 true 0x1001 4 ∧ isAdmitted wide true 0xFFFFFFC0 4 :=
  ⟨admitted (by decide +kernel), admitted (by decide +kernel), admitted (by decide +kernel)⟩

/-- Exactly `Buf` (Q9), the whole address space (Q15), no block at all, a tail only. -/
theorem witness_RunResult :
    isAdmitted c128 false 0x1000 256 ∧ isAdmitted wide false 0 (2 ^ 28) ∧ isAdmitted c128 false 0x4003 0 ∧
      isAdmitted c256 true 0x1FCF 3 :=
  ⟨admitted (by decide +kernel), admitted (by decide +kernel), admitted (by decide +kernel),
    admitted (by decide +kernel)⟩

theorem witness_InterleavedLanesAreIndependent : (1 : Nat) ≤ 10 ∧ (1 : Nat) ≤ 1 ∧ (3 : Nat) < 4 := by decide

/-- The first and the last slot, and a slot four behind another. -/
theorem witness_IssueOrderSlots :
    ((1 : Nat) ≤ 1 ∧ (1 : Nat) ≤ 10 ∧ (0 : Nat) < 4) ∧ ((1 : Nat) ≤ 10 ∧ (10 : Nat) ≤ 10 ∧ (3 : Nat) < 4) ∧
      (issueOrder 10)[35 + 4]? = some (9 + 1, 3) := by decide +kernel

theorem witness_RunOfNoBlocks :
    hasContext c128 ∧ ¬ hasContext State.reset ∧ State.reset.flt = 0 := by decide +kernel

theorem witness_RunEqualsSingleBlocks : c128.flt = 0 ∧ isAdmitted c128 true 0x1001 7 :=
  ⟨by decide, admitted (by decide +kernel)⟩

/-- The one block at 0x1040 through ENC1, and the same block as the last of a RUN elsewhere, with other
stale round keys behind (S4). -/
theorem witness_PathEquivalence :
    ∃ (s s' t t' : State),
      blockOperands (.enc1 false 0x1040) = some (false, 0x1040, 1) ∧
      blockOperands (.run true 0x1101 5) = some (true, 0x1101, 5) ∧
      isAdmitted s false 0x1040 1 ∧ isAdmitted s' true 0x1101 5 ∧ (0 : Nat) < 1 ∧ (4 : Nat) < 5 ∧
      s.nr = s'.nr ∧ (∀ r ≤ s.nr.toNat, s.rkAt r = s'.rkAt r) ∧
      readBlock s.mem (0x1040 + 16 * 0) = readBlock s'.mem (0x1101 + 16 * 4) ∧
      exec (.enc1 false 0x1040) s = .next t ∧ exec (.run true 0x1101 5) s' = .next t' ∧
      s.rk ≠ s'.rk :=
  ⟨put 0x1040 b0 c128, put 0x1141 b0 { c128 with rk := expand128 key0 c256.rk }, _, _, rfl, rfl,
    admitted (by decide +kernel), admitted (by decide +kernel), by decide, by decide, rfl,
    by decide +kernel, by decide +kernel, exec_after _ _, exec_after _ _, by decide +kernel⟩

/-- A witness for each of the four clauses, at the edge of its range. -/
theorem witness_BlockCheckOrder :
    blockOperands (.run false 0x1001 1) = some (false, 0x1001, 1) ∧ c128.flt = 0 ∧
      ¬ hasContext { c128 with nr := 9 } ∧
      hasContext c128 ∧ (0 : Nat) = 0 ∧
      (1 : Nat) ≠ 0 ∧ ¬ isAligned false 0x1001 ∧
      isAligned true 0x1FF1 ∧ ¬ isInBounds c128 0x1FF1 1 := by
  refine ⟨rfl, by decide, by decide +kernel, by decide +kernel, rfl, by decide, by decide, by decide, ?_⟩
  rintro ⟨_, h⟩
  exact absurd (h 0x2000 (by decide) (by decide)) (by decide)

theorem witness_RunCountBound :
    ∃ t, 0 < 1 ∧ c128.flt = 0 ∧ exec (.run false 0x1000 1) c128 = .next t ∧ t.flt = 0 :=
  ⟨_, by decide, by decide, exec_after _ _, by decide +kernel⟩

theorem witness_AccessesInReferenceOrder :
    blockOperands (.run false 0x1000 7) = some (false, 0x1000, 7) ∧ isAdmitted c128 false 0x1000 7 :=
  ⟨rfl, admitted (by decide +kernel)⟩

theorem witness_EachBlockReadThenWrittenOnce :
    blockOperands (.enc4 true 0x1FC0) = some (true, 0x1FC0, 4) ∧ isAdmitted c128 true 0x1FC0 4 ∧
      (3 : Nat) < 4 ∧ ¬ isAdmitted c128 true 0x1FC1 4 ∧ blockOperands (.dbl 1) = none :=
  ⟨rfl, admitted (by decide +kernel), by decide,
    not_admitted (c := .bounds) (by decide +kernel), rfl⟩

/-- Two keys, and two memories under one RUN. -/
theorem witness_ControlIgnoresData :
    (∃ t t', sameHeader (.exp128 key0) (.exp128 key1) = true ∧ c128.nr = wide.nr ∧
      exec (.exp128 key0) c128 = .next t ∧ exec (.exp128 key1) c128 = .next t') ∧
    (∃ (s s' t t' : State), sameHeader (.run true 0x1001 5) (.run true 0x1001 5) = true ∧ s.nr = s'.nr ∧
      s.buf = s'.buf ∧ s.flt = s'.flt ∧ exec (.run true 0x1001 5) s = .next t ∧
      exec (.run true 0x1001 5) s' = .next t' ∧ s.mem ≠ s'.mem ∧ s.rk ≠ s'.rk) :=
  ⟨⟨_, _, rfl, rfl, exec_after _ _, exec_after _ _⟩,
   ⟨c128, put 0x1001 b0 { c128 with rk := State.reset.rk }, _, _, rfl, rfl, rfl, rfl, exec_after _ _,
    exec_after _ _, by decide +kernel, by decide +kernel⟩⟩

/-- Each of the three faults an executed command raises. -/
theorem witness_FaultsArePrecise :
    ∃ t2 t3 t4, State.reset.flt = 0 ∧ exec (.enc1 true 0x1000) State.reset = .next t2 ∧ t2.flt = 2 ∧
      c128.flt = 0 ∧ exec (.run true 0x1FF0 2) c128 = .next t3 ∧ t3.flt = 3 ∧
      exec (.enc4 false 0x1008) c128 = .next t4 ∧ t4.flt = 4 :=
  ⟨_, _, _, rfl, exec_after _ _, by decide +kernel, rfl, exec_after _ _, by decide +kernel,
    exec_after _ _, by decide +kernel⟩

theorem witness_FaultedCoreDoesNothing :
    let s := { faultedState with host := [.coreTurn, .reset], cmd := [6] }
    faultedState.flt ≠ 0 ∧ faultedState.host = [] ∧ s.flt ≠ 0 ∧ s.host = .coreTurn :: [.reset] := by
  decide +kernel

theorem witness_OnlyResetClearsFault :
    ∃ s t : State, s.flt ≠ 0 ∧ step s = .next t ∧ t.flt ≠ s.flt :=
  ⟨{ faultedState with host := [.reset] }, _, by decide, rfl, by decide⟩

theorem witness_OneResponsePerCommand :
    ∃ t t', State.reset.flt = 0 ∧ exec (.dbl 1) State.reset = .next t ∧
      exec (.enc1 true 0x1000) State.reset = .next t' :=
  ⟨_, _, rfl, exec_after _ _, exec_after _ _⟩

/-- Reset, and EXP128 as the host's choice and on the host's leaving the turn. -/
theorem witness_OnlyExpandAndResetWriteContext :
    (∃ s t : State, s.host = [.reset] ∧ step s = .next t ∧ ¬ sameContext s t) ∧
    (∃ s t : State, s.host = [] ∧ step s = .next t ∧ ¬ sameContext s t) ∧
    (∃ s t : State, s.host = [.coreTurn] ∧ step s = .next t ∧ ¬ sameContext s t) := by
  refine ⟨⟨{ c128 with host := [.reset] }, _, rfl, rfl, fun h => absurd h.2 (by decide)⟩,
    ⟨{ State.reset with cmd := [1, 0, 0, 0, 0] }, stepped { State.reset with cmd := [1, 0, 0, 0, 0] },
      rfl, rfl, fun h => absurd h.2 (by decide +kernel)⟩,
    ⟨{ State.reset with cmd := [1, 0, 0, 0, 0], host := [.coreTurn] },
      stepped { State.reset with cmd := [1, 0, 0, 0, 0], host := [.coreTurn] }, rfl, rfl,
      fun h => absurd h.2 (by decide +kernel)⟩⟩

theorem witness_ResponsesHideRoundKeys :
    ∃ t t', exec (.enc1 false 0x1000) c128 = .next t ∧
      exec (.enc1 false 0x1000) { c128 with rk := State.reset.rk } = .next t' :=
  ⟨_, _, exec_after _ _, exec_after _ _⟩

/-- Stale entries 11 to 14 differ; and with no context every entry may. -/
theorem witness_UnwrittenRoundKeysAreNotRead :
    ∃ rk t t', (hasContext c128 → ∀ r ≤ c128.nr.toNat, rk.getD r 0 = c128.rkAt r) ∧ rk ≠ c128.rk ∧
      exec (.enc1 false 0x1000) c128 = .next t ∧
      exec (.enc1 false 0x1000) { c128 with rk := rk } = .next t' ∧
      (hasContext State.reset → ∀ r ≤ State.reset.nr.toNat, c256.rk.getD r 0 = State.reset.rkAt r) :=
  ⟨expand128 key0 c256.rk, _, _, by decide +kernel, by decide +kernel, exec_after _ _, exec_after _ _,
    fun h => absurd h (by decide)⟩

theorem witness_DoublingIsMultiplicationByX :
    (1 : Word).getLsbD 127 = false ∧ (0x80000000000000000000000000000000 : Word).getLsbD 127 = true := by
  decide +kernel

theorem witness_ResetInput :
    let s := { faultedState with host := [.reset, .coreTurn], frame := [5, 0x1000] }
    s.host = .reset :: [.coreTurn] := rfl

/-- Reset inside a RUN of which the header had been taken. -/
theorem witness_ResetDuringCommand :
    ∃ s u : State, s.host = .resetInCommand :: [] ∧ s.flt = 0 ∧ frameOpen s.frame = true ∧
      decode (s.frame ++ s.cmd) = .ok (.run false 0x1000 5, [6]) ∧
      exec (.run false 0x1000 5) { s with frame := [], cmd := [6], host := [] } = .next u :=
  ⟨{ c128 with host := [.resetInCommand], frame := [5], cmd := [0x1000, 5, 6] }, _, rfl, rfl,
    by decide +kernel, by decide +kernel, exec_after _ _⟩

/-- Reset on a faulted core, on an idle one, inside a header's payload, and at an illegal header. -/
theorem witness_ResetWhileReceiving :
    let f := { faultedState with host := [.resetInCommand], cmd := [6] }
    let e := { c128 with host := [.resetInCommand] }
    let p := { c128 with host := [.resetInCommand], frame := [5], cmd := [0x1000] }
    let i := { c128 with host := [.resetInCommand], cmd := [0x106, 7] }
    (f.host = .resetInCommand :: [] ∧ f.flt ≠ 0) ∧
    (e.host = .resetInCommand :: [] ∧ e.frame ++ e.cmd = []) ∧
    (p.host = .resetInCommand :: [] ∧ decode (p.frame ++ p.cmd) = .error (.payloadMissing .run)) ∧
    (i.host = .resetInCommand :: [] ∧ i.flt = 0 ∧ i.frame = [] ∧ i.cmd = 0x106 :: [7] ∧
      decode i.cmd = .error (.illegalHeader 0x106)) := by decide +kernel

theorem witness_HostMoves :
    ({ c128 with host := [.sendWord 6] } : State).host = .sendWord 6 :: [] ∧
    ({ c128 with host := [.takeWord], resp := [0, 5] } : State).host = .takeWord :: [] ∧
    ({ c128 with host := [.takeWord], resp := [0, 5] } : State).resp = 0 :: [5] ∧
    ({ c128 with host := [.writeByte 0xFFFFFFFF 7] } : State).host = .writeByte 0xFFFFFFFF 7 :: [] ∧
    ({ c128 with host := [.setBuf []] } : State).host = .setBuf [] :: [] := ⟨rfl, rfl, rfl, rfl, rfl⟩

/-- A state of each kind the invariant allows, with a step from it. -/
theorem witness_StepKeepsInvariant :
    ∃ s t : State, Inv s ∧ step s = .next t ∧ Inv c256 ∧ Inv faultedState :=
  ⟨{ put 0x1000 b0 c128 with cmd := [3, 0x1000], frame := [] },
    stepped { put 0x1000 b0 c128 with cmd := [3, 0x1000], frame := [] },
    ⟨by decide +kernel, by decide +kernel, by decide, rfl⟩, rfl,
    ⟨rfl, by decide +kernel, by decide, rfl⟩, ⟨rfl, by decide +kernel, by decide, rfl⟩⟩

/-- P6 and the reverse order of its keys. -/
theorem witness_ContextIsOfMostRecentKey :
    ∃ t t', (∀ i ∈ [Instr.enc1 false 0x1010], (∀ k, i ≠ .exp128 k) ∧ ∀ k k', i ≠ .exp256 k k') ∧
      runCommands ([.exp256 key0 key1, .enc1 false 0x1000] ++ .exp128 key0 :: [.enc1 false 0x1010]) c128 =
        .next t ∧
      runCommands ([.exp128 key0] ++ .exp256 key0 key1 :: [.enc1 false 0x1010]) c128 = .next t' := by
  refine ⟨match runCommands ([.exp256 key0 key1, .enc1 false 0x1000] ++ .exp128 key0 ::
      [.enc1 false 0x1010]) c128 with | .next t => t | _ => c128,
    match runCommands ([.exp128 key0] ++ .exp256 key0 key1 :: [.enc1 false 0x1010]) c128 with
      | .next t => t | _ => c128, by simp, ?_, ?_⟩
  · have h : endedWell (runCommands ([.exp256 key0 key1, .enc1 false 0x1000] ++ .exp128 key0 ::
      [.enc1 false 0x1010]) c128) = true := by decide +kernel
    revert h
    generalize runCommands _ _ = o
    cases o <;> simp [endedWell]
  · have h : endedWell (runCommands ([.exp128 key0] ++ .exp256 key0 key1 ::
      [.enc1 false 0x1010]) c128) = true := by decide +kernel
    revert h
    generalize runCommands _ _ = o
    cases o <;> simp [endedWell]

end Sys2Proof.Tests
end

section
/-! PROOFS. The statements on the state of 10_state.md: the invariant of every step (R26, R28, R29, R61),
who writes the context and the fault register (R22, R29), and what of the round-key RAM can be observed
(R24, R25, R34, R127). -/

namespace Sys2Proof.Machine

/-! ### The two host moves that hand over to the core -/

/-- Leaving the turn to the core is a move of the core, or nothing if it can make none. -/
theorem hostMove_coreTurn_cases (s : State) :
    hostMove .coreTurn s = s ∨ coreMove s = .next (hostMove .coreTurn s) := by
  rw [hostMove]
  cases hc : coreMove s with
  | next t => exact .inr rfl
  | fault r => exact .inl rfl
  | refused r => exact .inl rfl

/-- A reset aimed inside a command abandons a move of the core, or is one between commands. -/
theorem hostMove_resetInCommand_cases (s : State) :
    hostMove .resetInCommand s = s.applyReset ∨
      ∃ t, coreMove s = .next t ∧ hostMove .resetInCommand s = abandonMove s t := by
  rw [hostMove]
  cases hc : coreMove s with
  | next t => exact .inr ⟨t, rfl, rfl⟩
  | fault r => exact .inl rfl
  | refused r => exact .inl rfl

/-! ### The fault register (R29, R176, R189) -/

/-- Raising a fault leaves a code of R176. -/
theorem fltAfter_toNat_le {flt : BitVec 8} (h : flt.toNat ≤ 4) (c : FaultCode) :
    (fltAfter flt c).toNat ≤ 4 := by
  rw [fltAfter]
  split
  · cases c <;> decide
  · exact h

/-- A reset inside a command clears `FLT`. -/
@[simp] theorem abandonMove_flt (s t : State) : (abandonMove s t).flt = 0 := by
  rcases abandonMove_cases s t with ⟨k, h⟩ | ⟨pickKey, pick, h⟩ <;> rw [h] <;> rfl

/-- Wherever a reset strikes, `FLT` is 0 after it. -/
theorem hostMove_resetInCommand_flt (s : State) : (hostMove .resetInCommand s).flt = 0 := by
  rcases hostMove_resetInCommand_cases s with h | ⟨t, -, h⟩ <;> rw [h]
  · exact applyReset_flt s
  · exact abandonMove_flt s t

/-- With a fault recorded, leaving the turn to the core changes nothing (R187). -/
theorem hostMove_coreTurn_of_faulted {s : State} (h : s.flt ≠ 0) : hostMove .coreTurn s = s := by
  rw [hostMove, coreMove_of_faulted h]

/-- Settles O44: the core of a faulted machine has no move, so the step is one of the host's, and of
these only the two resets write `FLT`. -/
theorem onlyResetClearsFault : Obligations.OnlyResetClearsFault := by
  intro s t hflt hstep hne
  rcases step_next_cases hstep with ⟨-, hcore⟩ | ⟨a, rest, hhost, rfl⟩
  · rw [coreMove_of_faulted hflt] at hcore
    cases hcore
  · cases a with
    | reset => exact ⟨rfl, rest, .inl hhost⟩
    | resetInCommand => exact ⟨hostMove_resetInCommand_flt _, rest, .inr hhost⟩
    | coreTurn =>
      rw [hostMove_coreTurn_of_faulted (s := { s with host := rest }) hflt] at hne
      exact absurd rfl hne
    | sendWord w => exact absurd rfl hne
    | takeWord => exact absurd rfl hne
    | writeByte addr b => exact absurd rfl hne
    | setBuf regions => exact absurd rfl hne

/-! ### Who writes the context (R22, R23) -/

/-- A command is an EXP command, or it leaves the context alone. -/
theorem exec_expand_or_sameContext {i : Instr} {s t : State} (h : exec i s = .next t) :
    ((∃ k, i = .exp128 k) ∨ ∃ k k', i = .exp256 k k') ∨ sameContext s t := by
  cases i with
  | exp128 kw0 => exact .inl (.inl ⟨kw0, rfl⟩)
  | exp256 kw0 kw1 => exact .inl (.inr ⟨kw0, kw1, rfl⟩)
  | enc1 u addr => rw [exec_enc1_iff] at h; subst h; exact .inr ⟨blockCommand_rk .., blockCommand_nr ..⟩
  | enc4 u addr => rw [exec_enc4_iff] at h; subst h; exact .inr ⟨blockCommand_rk .., blockCommand_nr ..⟩
  | run u addr n => rw [exec_run_iff] at h; subst h; exact .inr ⟨blockCommand_rk .., blockCommand_nr ..⟩
  | dbl x => rw [exec_dbl_iff] at h; subst h; exact .inr ⟨rfl, rfl⟩

/-- A move of the core that changes the context executed an EXP command. -/
theorem coreMove_expand_of_context_changed {s t : State} (h : coreMove s = .next t)
    (hne : ¬ sameContext s t) :
    ∃ i rest, decode (s.frame ++ s.cmd) = .ok (i, rest) ∧
      ((∃ k, i = .exp128 k) ∨ ∃ k k', i = .exp256 k k') := by
  obtain ⟨-, ⟨i, rest, hd, he⟩ | ⟨w, -, rfl⟩ | ⟨op, -, -, rfl⟩⟩ := coreMove_next_cases h
  · exact ⟨i, rest, hd, (exec_expand_or_sameContext he).resolve_right hne⟩
  · exact absurd ⟨rfl, rfl⟩ hne
  · exact absurd ⟨rfl, rfl⟩ hne

/-- Settles O46: the core writes the context in an EXP command only, and the host in a reset or by
leaving the turn to the core only. -/
theorem onlyExpandAndResetWriteContext : Obligations.OnlyExpandAndResetWriteContext := by
  intro s t hstep hne
  rcases step_next_cases hstep with ⟨hhost, hcore⟩ | ⟨a, rest, hhost, rfl⟩
  · exact .inr ⟨.inl hhost, coreMove_expand_of_context_changed hcore hne⟩
  · cases a with
    | reset => exact .inl ⟨rest, .inl hhost⟩
    | resetInCommand => exact .inl ⟨rest, .inr hhost⟩
    | coreTurn =>
      refine .inr ⟨.inr ⟨rest, hhost⟩, ?_⟩
      rcases hostMove_coreTurn_cases { s with host := rest } with hidle | hcore
      · rw [hidle] at hne
        exact absurd ⟨rfl, rfl⟩ hne
      · exact coreMove_expand_of_context_changed (s := { s with host := rest }) hcore hne
    | sendWord w => exact absurd ⟨rfl, rfl⟩ hne
    | takeWord => exact absurd ⟨rfl, rfl⟩ hne
    | writeByte addr b => exact absurd ⟨rfl, rfl⟩ hne
    | setBuf regions => exact absurd ⟨rfl, rfl⟩ hne

/-! ### The round keys the two expansions leave (R114, R117) -/

/-- Entry 0 after EXP128 is the key. -/
theorem expand128_getD_zero (kw0 : Word) (rk : Vector Word 15) : (expand128 kw0 rk).getD 0 0 = kw0 := by
  rw [expand128, foldl_rkSet_other (fun rk i => nextKey128 (rk.getD (i - 1) 0) i) _ (by omega) (by omega),
    rkSet_getD _ _ _ _ (by omega), if_pos rfl]

/-- Entries 1 to 10 after EXP128 are each the next key of the one before. -/
theorem built128_expand128 (kw0 : Word) (rk : Vector Word 15) :
    built128 fun i => (expand128 kw0 rk).getD i 0 := by
  intro i hi
  rw [List.mem_range'_1] at hi
  refine foldl_rkSet_self (fun rk i => nextKey128 (rk.getD (i - 1) 0) i) _ ?_ (by omega) (by omega)
    hi.1 hi.2
  intro rk rk' i hpos hbelow
  rw [hbelow (i - 1) (by omega)]

/-- Entries 0 and 1 after EXP256 are the key. -/
theorem expand256_getD_key (kw0 kw1 : Word) (rk : Vector Word 15) :
    (expand256 kw0 kw1 rk).getD 0 0 = kw0 ∧ (expand256 kw0 kw1 rk).getD 1 0 = kw1 := by
  have hkept (j : Nat) (hj : j < 2) :
      (expand256 kw0 kw1 rk).getD j 0 = (rkSet (rkSet rk 0 kw0) 1 kw1).getD j 0 :=
    foldl_rkSet_other (fun rk i => nextKey256 (rk.getD (i - 2) 0) (rk.getD (i - 1) 0) i) _ (by omega)
      (.inl hj)
  constructor
  · rw [hkept 0 (by omega), rkSet_getD _ _ _ _ (by omega), if_neg (by omega),
      rkSet_getD _ _ _ _ (by omega), if_pos rfl]
  · rw [hkept 1 (by omega), rkSet_getD _ _ _ _ (by omega), if_pos rfl]

/-- Entries 2 to 14 after EXP256 are each the next key of the two before. -/
theorem built256_expand256 (kw0 kw1 : Word) (rk : Vector Word 15) :
    built256 fun i => (expand256 kw0 kw1 rk).getD i 0 := by
  intro i hi
  rw [List.mem_range'_1] at hi
  refine foldl_rkSet_self (fun rk i => nextKey256 (rk.getD (i - 2) 0) (rk.getD (i - 1) 0) i) _ ?_
    (by omega) (by omega) hi.1 hi.2
  intro rk rk' i hpos hbelow
  rw [hbelow (i - 1) (by omega), hbelow (i - 2) (by omega)]

/-- The next key of EXP256 is one key step on the assist that the index calls for (R117). -/
theorem nextKey256_eq_keyStep (prev2 prev : Word) (i : Nat) :
    nextKey256 prev2 prev i =
      keyStep prev2 (if i % 2 = 0 then assistRc prev (rcon (i / 2)) else assistNoRc prev) := by
  rw [nextKey256, apply_ite (keyStep prev2)]

/-! ### Runs of complete commands (R26, R208) -/

/-- A run comes to its end when its first command meets a core that is not faulted, and the others
come to their end after it. -/
theorem runCommands_cons_next_iff {i : Instr} {is : List Instr} {s t : State} :
    runCommands (i :: is) s = .next t ↔
      s.faulted = false ∧ ∃ u, exec i s = .next u ∧ runCommands is u = .next t := by
  obtain ⟨u, hu⟩ := exec_next i s
  cases hf : s.faulted <;> simp [runCommands, hf, hu]

/-- A run comes to its end when its first part does, and its second part after that. -/
theorem runCommands_append_next_iff {before after : List Instr} {s t : State} :
    runCommands (before ++ after) s = .next t ↔
      ∃ u, runCommands before s = .next u ∧ runCommands after u = .next t := by
  induction before generalizing s with
  | nil => simp [runCommands]
  | cons i is ih =>
    simp only [List.cons_append, runCommands_cons_next_iff, ih]
    grind

/-- A run without EXP commands leaves the context alone. -/
theorem runCommands_sameContext {is : List Instr} {s t : State}
    (hne : ∀ i ∈ is, (∀ k, i ≠ .exp128 k) ∧ ∀ k k', i ≠ .exp256 k k')
    (h : runCommands is s = .next t) : sameContext s t := by
  induction is generalizing s with
  | nil => cases h; exact ⟨rfl, rfl⟩
  | cons i is ih =>
    obtain ⟨-, u, hu, hrest⟩ := runCommands_cons_next_iff.1 h
    obtain ⟨hne128, hne256⟩ := hne i (by simp)
    obtain ⟨hrk, hnr⟩ : sameContext s u :=
      (exec_expand_or_sameContext hu).resolve_left fun hexp =>
        hexp.elim (fun ⟨k, hk⟩ => hne128 k hk) fun ⟨k, k', hk⟩ => hne256 k k' hk
    obtain ⟨hrk', hnr'⟩ := ih (fun j hj => hne j (by simp [hj])) hrest
    exact ⟨hrk'.trans hrk, hnr'.trans hnr⟩

/-- The context after a run is that after the command that no EXP command follows. -/
theorem runCommands_context_of_last {before after : List Instr} {i : Instr} {s t : State}
    (hne : ∀ i ∈ after, (∀ k, i ≠ .exp128 k) ∧ ∀ k k', i ≠ .exp256 k k')
    (h : runCommands (before ++ i :: after) s = .next t) :
    ∃ u v, exec i u = .next v ∧ sameContext v t := by
  obtain ⟨u, -, hrest⟩ := runCommands_append_next_iff.1 h
  obtain ⟨-, v, hv, hafter⟩ := runCommands_cons_next_iff.1 hrest
  exact ⟨u, v, hv, runCommands_sameContext hne hafter⟩

/-- Settles O55: the last EXP command leaves the round keys of its key, and no later command of the
run writes the context. -/
theorem contextIsOfMostRecentKey : Obligations.ContextIsOfMostRecentKey := by
  intro before after s t hne
  constructor
  · intro kw0 h
    obtain ⟨u, v, hv, hrk, hnr⟩ := runCommands_context_of_last hne h
    rw [exec_exp128_iff] at hv
    subst hv
    simp only [rkAt_eq, hrk, hnr]
    exact ⟨trivial, expand128_getD_zero kw0 u.rk, fun i h1 h10 =>
      built128_expand128 kw0 u.rk i (List.mem_range'_1.2 ⟨h1, by omega⟩)⟩
  · intro kw0 kw1 h
    obtain ⟨u, v, hv, hrk, hnr⟩ := runCommands_context_of_last hne h
    rw [exec_exp256_iff] at hv
    subst hv
    simp only [rkAt_eq, hrk, hnr]
    obtain ⟨hkey0, hkey1⟩ := expand256_getD_key kw0 kw1 u.rk
    exact ⟨trivial, hkey0, hkey1, fun i h2 h14 =>
      (built256_expand256 kw0 kw1 u.rk i (List.mem_range'_1.2 ⟨h2, by omega⟩)).trans
        (nextKey256_eq_keyStep ..)⟩

/-! ### What of the round-key RAM can be observed (R24, R25, R34, R127) -/

/-- The response and `FLT` of a block command do not depend on the round keys. -/
theorem blockCommand_resp_flt_rk (u : Bool) (addr n : Nat) (body : BlockBody) (s : State)
    (rk : Vector Word 15) :
    (blockCommand u addr n body s).resp = (blockCommand u addr n body { s with rk := rk }).resp ∧
      (blockCommand u addr n body s).flt = (blockCommand u addr n body { s with rk := rk }).flt := by
  have hcheck : blockCheck { s with rk := rk } u addr n = blockCheck s u addr n := rfl
  cases h : blockCheck s u addr n with
  | some c =>
    rw [blockCommand_of_some body h, blockCommand_of_some body (hcheck.trans h)]
    exact ⟨rfl, rfl⟩
  | none =>
    rw [blockCommand_of_none body h, blockCommand_of_none body (hcheck.trans h)]
    exact ⟨rfl, rfl⟩

/-- Settles O47: EXP and DBL respond alike in every state, and a block command responds by its checks. -/
theorem responsesHideRoundKeys : Obligations.ResponsesHideRoundKeys := by
  intro i s rk t t' h h'
  cases i with
  | exp128 kw0 => rw [exec_exp128_iff] at h h'; subst h h'; exact ⟨rfl, rfl⟩
  | exp256 kw0 kw1 => rw [exec_exp256_iff] at h h'; subst h h'; exact ⟨rfl, rfl⟩
  | enc1 u addr => rw [exec_enc1_iff] at h h'; subst h h'; exact blockCommand_resp_flt_rk ..
  | enc4 u addr => rw [exec_enc4_iff] at h h'; subst h h'; exact blockCommand_resp_flt_rk ..
  | run u addr n => rw [exec_run_iff] at h h'; subst h h'; exact blockCommand_resp_flt_rk ..
  | dbl x => rw [exec_dbl_iff] at h h'; subst h h'; exact ⟨rfl, rfl⟩

/-- The middle rounds read the round keys of their own rounds only. -/
theorem rounds_congr {rk rk' : Nat → Word} {r m : Nat} (t : Word)
    (h : ∀ i, r ≤ i → i < r + m → rk i = rk' i) : rounds rk r m t = rounds rk' r m t := by
  induction m generalizing r t with
  | zero => rfl
  | succ m ih =>
    rw [rounds, rounds, h r (by omega) (by omega)]
    exact ih _ fun i h1 h2 => h i (by omega) (by omega)

section
variable {nr : Nat} {rk rk' : Nat → Word} (h : ∀ r ≤ nr, rk r = rk' r)
include h

/-- The cipher reads entries 0 to `nr` only (R98). -/
theorem cipher_congr (t : Word) : cipher nr rk t = cipher nr rk' t := by
  rw [cipher, cipher, h 0 (by omega), h nr (by omega),
    rounds_congr _ fun i h1 h2 => h i (by omega)]

/-- The interleaved loop reads entries 0 to `nr` only (R131). -/
theorem encryptLanes_congr (st : Vector Word 4) : encryptLanes nr rk st = encryptLanes nr rk' st := by
  rw [encryptLanes, encryptLanes, h 0 (by omega)]
  refine List.foldl_ext _ _ _ fun st op hop => ?_
  have hle : op.1 ≤ nr := by
    simp only [issueOrder, List.mem_flatMap, List.mem_map, List.mem_range'_1] at hop
    obtain ⟨r, hr, j, -, rfl⟩ := hop
    dsimp only
    omega
  simp only [issue, roundUnit, h op.1 hle]

/-- The single-block path reads entries 0 to `nr` only (R127). -/
theorem kernel1_congr (a : Nat) (p : Port) : kernel1 a nr rk p = kernel1 a nr rk' p := by
  simp only [kernel1, cipher_congr h]

/-- The 4-way kernel reads entries 0 to `nr` only (R127). -/
theorem kernel4_congr (a : Nat) (p : Port) : kernel4 a nr rk p = kernel4 a nr rk' p := by
  simp only [kernel4, encryptLanes_congr h]

/-- The sequencer reads entries 0 to `nr` only (R127). -/
theorem runBody_congr (addr n : Nat) (p : Port) : runBody addr n nr rk p = runBody addr n nr rk' p := by
  simp only [runBody, runGroups, runTail, kernel1_congr h, kernel4_congr h]

end

/-- The memory after a block command depends on the round keys through `RK[0..NR]` only, and on none
of them without a context, if so does its body. -/
theorem blockCommand_mem_congr {body : BlockBody}
    (hbody : ∀ {nr : Nat} {rk rk' : Nat → Word}, (∀ r ≤ nr, rk r = rk' r) →
      ∀ p, body nr rk p = body nr rk' p)
    (u : Bool) (addr n : Nat) {s : State} {rk : Vector Word 15}
    (h : hasContext s → ∀ r ≤ s.nr.toNat, rk.getD r 0 = s.rkAt r) :
    (blockCommand u addr n body s).mem = (blockCommand u addr n body { s with rk := rk }).mem := by
  have hcheck : blockCheck { s with rk := rk } u addr n = blockCheck s u addr n := rfl
  cases hc : blockCheck s u addr n with
  | some c => rw [blockCommand_of_some body hc, blockCommand_of_some body (hcheck.trans hc)]; rfl
  | none =>
    obtain ⟨hvalid, -⟩ := (blockCheck_eq_none_iff s u addr n).1 hc
    have hport : blockPort body s = blockPort body { s with rk := rk } :=
      hbody (fun r hr => (h ((validContext_iff s.nr).1 hvalid) r hr).symm) _
    rw [blockCommand_of_none body hc, blockCommand_of_none body (hcheck.trans hc), hport]
    rfl

/-- Settles O48: only the bodies of the block commands read the round-key RAM, and those up to `NR`. -/
theorem unwrittenRoundKeysAreNotRead : Obligations.UnwrittenRoundKeysAreNotRead := by
  intro i s rk t t' hagree h h'
  obtain ⟨hresp, hflt⟩ := responsesHideRoundKeys i s rk t t' h h'
  suffices hmem : t.mem = t'.mem ∧ t.nr = t'.nr from ⟨hmem.1, hmem.2, hflt, hresp⟩
  cases i with
  | exp128 kw0 => rw [exec_exp128_iff] at h h'; subst h h'; exact ⟨rfl, rfl⟩
  | exp256 kw0 kw1 => rw [exec_exp256_iff] at h h'; subst h h'; exact ⟨rfl, rfl⟩
  | enc1 u addr =>
    rw [exec_enc1_iff] at h h'
    subst h h'
    exact ⟨blockCommand_mem_congr (kernel1_congr · addr) u addr 1 hagree, by simp⟩
  | enc4 u addr =>
    rw [exec_enc4_iff] at h h'
    subst h h'
    exact ⟨blockCommand_mem_congr (kernel4_congr · addr) u addr 4 hagree, by simp⟩
  | run u addr n =>
    rw [exec_run_iff] at h h'
    subst h h'
    exact ⟨blockCommand_mem_congr (runBody_congr · addr n) u addr n hagree, by simp⟩
  | dbl x => rw [exec_dbl_iff] at h h'; subst h h'; exact ⟨rfl, rfl⟩

/-! ### The invariant (R26, R28, R29, R61) -/

/-- Settles O53: at reset there is no memory content, no context, no fault and no partial command. -/
theorem invariantAtReset : Obligations.InvariantAtReset where
  memory := rfl
  context := .inl rfl
  fault := by decide
  framing := rfl

/-- A response keeps the invariant. -/
theorem inv_respond {s : State} (h : Inv s) (ws : List Lane) : Inv (s.respond ws) :=
  ⟨h.memory, h.context, h.fault, h.framing⟩

/-- Fault entry keeps the invariant. -/
theorem inv_raiseFault {s : State} (h : Inv s) (c : FaultCode) : Inv (raiseFault c s) :=
  ⟨h.memory, h.context, fltAfter_toNat_le h.fault c, h.framing⟩

/-- Reset establishes all of the invariant but the canonical memory, which it leaves alone. -/
theorem inv_applyReset {s : State} (hmem : Memory.wf s.mem = true) : Inv s.applyReset :=
  ⟨hmem, .inl rfl, by simp, rfl⟩

/-- Taking words keeps the invariant as long as those kept are of one command. -/
theorem inv_takeWords {s : State} (h : Inv s) {frame : List Lane} (hframe : frameOpen frame = true)
    (cmd : List Lane) : Inv { s with frame := frame, cmd := cmd } :=
  ⟨h.memory, h.context, h.fault, hframe⟩

/-- A block command that passes its checks names no block, or a buffer inside the address space (R47). -/
theorem bufferEnd_le_of_blockCheck {s : State} {u : Bool} {addr n : Nat}
    (h : blockCheck s u addr n = none) : n = 0 ∨ addr + 16 * n ≤ Config.addressSpace := by
  obtain ⟨-, hn⟩ := (blockCheck_eq_none_iff s u addr n).1 h
  exact hn.imp_right fun ⟨_, hbuf⟩ => ((bufferAdmitted_iff s.buf addr n).1 hbuf).1

/-- A block command keeps the invariant if its body keeps the canonical memory on a buffer inside the
address space. -/
theorem inv_blockCommand {s : State} (h : Inv s) (u : Bool) {addr n : Nat} {body : BlockBody}
    (hbody : n = 0 ∨ addr + 16 * n ≤ Config.addressSpace → Memory.wf (blockPort body s).mem = true) :
    Inv (blockCommand u addr n body s) := by
  rcases blockCommand_cases u addr n body s with ⟨c, -, heq⟩ | ⟨hcheck, heq⟩ <;> rw [heq]
  · exact inv_raiseFault h c
  · exact ⟨hbody (bufferEnd_le_of_blockCheck hcheck), h.context, h.fault, h.framing⟩

/-- No block, no access. -/
theorem runBody_zero (addr nr : Nat) (rk : Nat → Word) (p : Port) : runBody addr 0 nr rk p = p := rfl

/-- Every command keeps the invariant. -/
theorem inv_exec {i : Instr} {s t : State} (h : Inv s) (hexec : exec i s = .next t) : Inv t := by
  cases i with
  | exp128 kw0 =>
    rw [exec_exp128_iff] at hexec
    subst hexec
    exact ⟨h.memory, .inr (.inl ⟨rfl, built128_expand128 kw0 s.rk⟩), h.fault, h.framing⟩
  | exp256 kw0 kw1 =>
    rw [exec_exp256_iff] at hexec
    subst hexec
    exact ⟨h.memory, .inr (.inr ⟨rfl, built256_expand256 kw0 kw1 s.rk⟩), h.fault, h.framing⟩
  | enc1 u addr =>
    rw [exec_enc1_iff] at hexec
    subst hexec
    exact inv_blockCommand h u fun hend => wf_kernel1 _ _ h.memory (by omega)
  | enc4 u addr =>
    rw [exec_enc4_iff] at hexec
    subst hexec
    exact inv_blockCommand h u fun hend => wf_kernel4 _ _ h.memory (by omega)
  | run u addr n =>
    rw [exec_run_iff] at hexec
    subst hexec
    refine inv_blockCommand h u fun hend => ?_
    rcases hend with rfl | hend
    · rw [blockPort, runBody_zero]
      exact h.memory
    · exact wf_runBody _ _ h.memory hend
  | dbl x =>
    rw [exec_dbl_iff] at hexec
    subst hexec
    exact inv_respond h _

/-- Every move of the core keeps the invariant. -/
theorem inv_coreMove {s t : State} (h : Inv s) (hcore : coreMove s = .next t) : Inv t := by
  obtain ⟨-, ⟨i, rest, -, hexec⟩ | ⟨w, -, rfl⟩ | ⟨op, hdecode, -, rfl⟩⟩ := coreMove_next_cases hcore
  · exact inv_exec (inv_takeWords h rfl rest) hexec
  · exact inv_raiseFault (inv_takeWords h rfl _) .illegalCmd
  · exact inv_takeWords h ((decode_payloadMissing_iff _).1 ⟨op, hdecode⟩).2 []

/-- A reset inside a command that would have kept the canonical memory establishes the invariant: every
memory it can leave is a mixture of two canonical ones. -/
theorem inv_abandonMove {s t : State} (hs : Memory.wf s.mem = true) (ht : Memory.wf t.mem = true) :
    Inv (abandonMove s t) := by
  rcases abandonMove_cases s t with ⟨k, heq⟩ | ⟨pickKey, pick, heq⟩ <;> rw [heq]
  · exact inv_applyReset hs
  · exact inv_applyReset (wf_mixMemory pick hs ht)

/-- Every move of the host keeps the invariant. -/
theorem inv_hostMove {s : State} (h : Inv s) (a : HostAction) : Inv (hostMove a s) := by
  cases a with
  | sendWord w => exact ⟨h.memory, h.context, h.fault, h.framing⟩
  | takeWord => exact ⟨h.memory, h.context, h.fault, h.framing⟩
  | writeByte addr b => exact ⟨wf_writeByte b h.memory addr.isLt, h.context, h.fault, h.framing⟩
  | setBuf regions => exact ⟨h.memory, h.context, h.fault, h.framing⟩
  | reset => exact inv_applyReset h.memory
  | resetInCommand =>
    rcases hostMove_resetInCommand_cases s with heq | ⟨t, hcore, heq⟩ <;> rw [heq]
    · exact inv_applyReset h.memory
    · exact inv_abandonMove h.memory (inv_coreMove h hcore).memory
  | coreTurn =>
    rcases hostMove_coreTurn_cases s with heq | hcore
    · rw [heq]
      exact h
    · exact inv_coreMove h hcore

/-- Settles O54: a step is a move of the core or of the host, and each keeps the invariant. -/
theorem stepKeepsInvariant : Obligations.StepKeepsInvariant := by
  intro s t h hstep
  rcases step_next_cases hstep with ⟨-, hcore⟩ | ⟨a, rest, -, rfl⟩
  · exact inv_coreMove h hcore
  · have hrest : Inv { s with host := rest } := ⟨h.memory, h.context, h.fault, h.framing⟩
    exact inv_hostMove hrest a

end Sys2Proof.Machine
end

section
/-! PROOFS. The statements on the memory of 20_memory.md: the byte order (R41), the order of the accesses
of a block command (R53), and that each block is read once and then written once (R43). -/

namespace Sys2Proof.Machine

/-! ### Bytes of a block (R9, R41) -/

/-- Settles O56: the rules on reading and writing a block, at the 16 bytes of it and outside them. -/
theorem blockByteOrder : Obligations.BlockByteOrder := by
  refine ⟨fun W k => rfl, byteOf_readBlock, fun m a W => ⟨fun k hk => ?_, fun x hx => ?_⟩⟩
  · rw [readByte_writeBlock, if_pos (by omega), Nat.add_sub_cancel_left]
  · rw [readByte_writeBlock, if_neg (by omega)]

/-! ### The accesses of the kernels and of the sequencer are those of the reference order (R53) -/

/-- The executable checks pass exactly where the command is admitted (R184). -/
theorem blockCheck_eq_none_iff_isAdmitted (s : State) (u : Bool) (addr n : Nat) :
    blockCheck s u addr n = none ↔ isAdmitted s u addr n := by
  rw [blockCheck_eq_none_iff, validContext_iff, alignmentAdmitted_iff, bufferAdmitted_iff]

/-- A block command whose checks pass makes the accesses its body records. -/
theorem blockAccesses_of_none {u : Bool} {addr n : Nat} {s : State} (body : BlockBody)
    (h : blockCheck s u addr n = none) : blockAccesses u addr n body s = (blockPort body s).log := by
  rw [blockAccesses, h]

/-- A block command one of whose checks fails makes no access (R51). -/
theorem blockAccesses_of_some {u : Bool} {addr n : Nat} {s : State} {c : FaultCode} (body : BlockBody)
    (h : blockCheck s u addr n = some c) : blockAccesses u addr n body s = [] := by
  rw [blockAccesses, h]

/-- Block `j` of the buffer that starts at block `i` is block `i + j` (R42). -/
theorem blockAddr_blockAddr (addr i j : Nat) : blockAddr (blockAddr addr i) j = blockAddr addr (i + j) := by
  simp only [blockAddr, Config.blockBytes]
  omega

/-- Different blocks have different addresses (R42). -/
@[simp] theorem blockAddr_inj (addr i j : Nat) : blockAddr addr i = blockAddr addr j ↔ i = j := by
  simp only [blockAddr, Config.blockBytes]
  omega

/-- The single-block path at block `i` accesses it as a tail block. -/
theorem kernel1_log_tailAccesses (addr i nr : Nat) (rk : Nat → Word) (p : Port) :
    (kernel1 (blockAddr addr i) nr rk p).log = p.log ++ tailAccesses addr i := by
  rw [kernel1_log, List.append_assoc]
  rfl

/-- The 4-way kernel at block `i` accesses the window that starts there. -/
theorem kernel4_log_windowAccesses (addr i nr : Nat) (rk : Nat → Word) (p : Port) :
    (kernel4 (blockAddr addr i) nr rk p).log = p.log ++ windowAccesses addr i := by
  simp [kernel4, Port.readAt, Port.writeAt, windowAccesses, accessRun, List.range_succ, blockAddr_blockAddr]

/-- A sequence of port operations makes the accesses of each, in turn. -/
theorem log_foldl {f : Port → Nat → Port} {acc : Nat → List Access}
    (hf : ∀ p j, (f p j).log = p.log ++ acc j) (js : List Nat) (p : Port) :
    (js.foldl f p).log = p.log ++ js.flatMap acc := by
  induction js generalizing p with
  | nil => simp
  | cons j js ih => simp [ih, hf]

/-- The full groups access their windows, ascending (R145). -/
theorem runGroups_log (addr q nr : Nat) (rk : Nat → Word) (p : Port) :
    (runGroups addr q nr rk p).log =
      p.log ++ (List.range q).flatMap fun g => windowAccesses addr (4 * g) := by
  refine log_foldl (fun p g => ?_) (List.range q) p
  have haddr : addr + 64 * g = blockAddr addr (4 * g) := by simp only [blockAddr, Config.blockBytes]; omega
  rw [haddr, kernel4_log_windowAccesses]

/-- The tail blocks are accessed one by one, ascending (R145). -/
theorem runTail_log (addr q m nr : Nat) (rk : Nat → Word) (p : Port) :
    (runTail addr q m nr rk p).log =
      p.log ++ (List.range m).flatMap fun t => tailAccesses addr (4 * q + t) := by
  refine log_foldl (fun p t => ?_) (List.range m) p
  have haddr : addr + 64 * q + 16 * t = blockAddr addr (4 * q + t) := by
    simp only [blockAddr, Config.blockBytes]
    omega
  rw [haddr, kernel1_log_tailAccesses]

/-- The sequencer accesses its buffer in the reference order (R53, R147). -/
theorem runBody_log (addr n nr : Nat) (rk : Nat → Word) (p : Port) :
    (runBody addr n nr rk p).log = p.log ++ referenceAccesses addr n := by
  rw [runBody, runTail_log, runGroups_log, List.append_assoc]
  rfl

/-- A block command runs a body that accesses its buffer in the reference order. -/
theorem accesses_of_blockOperands {i : Instr} {u : Bool} {addr n : Nat}
    (h : blockOperands i = some (u, addr, n)) (s : State) :
    ∃ body : BlockBody, accesses i s = blockAccesses u addr n body s ∧
      ∀ nr rk p, (body nr rk p).log = p.log ++ referenceAccesses addr n := by
  cases i with
  | exp128 kw0 => cases h
  | exp256 kw0 kw1 => cases h
  | enc1 u addr => cases h; exact ⟨kernel1 addr, rfl, kernel1_log_tailAccesses addr 0⟩
  | enc4 u addr => cases h; exact ⟨kernel4 addr, rfl, kernel4_log_windowAccesses addr 0⟩
  | run u addr n => cases h; exact ⟨runBody addr n, rfl, runBody_log addr n⟩
  | dbl x => cases h

/-- Settles O35: once the checks pass, the accesses are those of the body on an empty record. -/
theorem accessesInReferenceOrder : Obligations.AccessesInReferenceOrder := by
  intro i u addr n s hi hadm
  obtain ⟨body, haccesses, hlog⟩ := accesses_of_blockOperands hi s
  rw [haccesses, blockAccesses_of_none body ((blockCheck_eq_none_iff_isAdmitted s u addr n).2 hadm)]
  exact hlog s.nr.toNat s.rkAt ⟨s.mem, []⟩

/-- A block command that fails a check accesses nothing (R51). -/
theorem accesses_of_not_isAdmitted {i : Instr} {u : Bool} {addr n : Nat} {s : State}
    (hi : blockOperands i = some (u, addr, n)) (hadm : ¬ isAdmitted s u addr n) : accesses i s = [] := by
  obtain ⟨body, haccesses, -⟩ := accesses_of_blockOperands hi s
  cases hcheck : blockCheck s u addr n with
  | some c => rw [haccesses, blockAccesses_of_some body hcheck]
  | none => exact absurd ((blockCheck_eq_none_iff_isAdmitted s u addr n).1 hcheck) hadm

/-- A command that is no block command accesses nothing (R40). -/
theorem accesses_of_blockOperands_none {i : Instr} (h : blockOperands i = none) (s : State) :
    accesses i s = [] := by
  cases i with
  | exp128 kw0 => rfl
  | exp256 kw0 kw1 => rfl
  | enc1 u addr => cases h
  | enc4 u addr => cases h
  | run u addr n => cases h
  | dbl x => rfl

/-! ### The accesses to one block in the reference order (R43) -/

/-- The accesses of a sequence that are made at address `a`, in their order. -/
def accessesAt (a : Nat) (l : List Access) : List Access := l.filter fun x => x.addr == a

@[simp] theorem accessesAt_nil (a : Nat) : accessesAt a [] = [] := rfl

@[simp] theorem accessesAt_append (a : Nat) (l l' : List Access) :
    accessesAt a (l ++ l') = accessesAt a l ++ accessesAt a l' := List.filter_append l l'

theorem accessesAt_cons (a : Nat) (x : Access) (l : List Access) :
    accessesAt a (x :: l) = if x.addr = a then x :: accessesAt a l else accessesAt a l := by
  simp [accessesAt, List.filter_cons]

/-- Where step `j` accesses the block at `a` exactly if `b` is one of the `c` blocks from `i + c * j`, steps
`0 .. q-1` access it exactly if `b` is one of the `c * q` blocks from `i`. -/
theorem accessesAt_flatMap_range {a b c i : Nat} {acc : Nat → List Access} {own : List Access}
    (hacc : ∀ j, accessesAt a (acc j) = if i + c * j ≤ b ∧ b < i + c * j + c then own else []) (q : Nat) :
    accessesAt a ((List.range q).flatMap acc) = if i ≤ b ∧ b < i + c * q then own else [] := by
  induction q with
  | zero =>
    have hempty : ¬ (i ≤ b ∧ b < i + c * 0) := by omega
    rw [if_neg hempty]
    rfl
  | succ q ih =>
    rw [List.range_succ, List.flatMap_append, List.flatMap_singleton, accessesAt_append, ih, hacc,
      Nat.mul_succ]
    by_cases hbefore : b < i + c * q
    · have hnot : ¬ (i + c * q ≤ b ∧ b < i + c * q + c) := by omega
      rw [if_neg hnot, List.append_nil]
      exact if_congr (by omega) rfl rfl
    · have hnot : ¬ (i ≤ b ∧ b < i + c * q) := by omega
      rw [if_neg hnot, List.nil_append]
      exact if_congr (by omega) rfl rfl

/-- A run of accesses to consecutive blocks accesses each of them once. -/
theorem accessesAt_accessRun (kind : AccessKind) (addr b i m : Nat) :
    accessesAt (blockAddr addr b) (accessRun kind addr i m) =
      if i ≤ b ∧ b < i + m then [⟨kind, blockAddr addr b⟩] else [] := by
  rw [accessRun, List.map_eq_flatMap]
  have hone : ∀ j, accessesAt (blockAddr addr b) [⟨kind, blockAddr addr (i + j)⟩] =
      if i + 1 * j ≤ b ∧ b < i + 1 * j + 1 then [⟨kind, blockAddr addr b⟩] else [] := by
    intro j
    rw [accessesAt_cons]
    by_cases hj : i + j = b
    · subst hj
      simp
    · rw [if_neg (mt (blockAddr_inj addr (i + j) b).1 hj), if_neg (by omega)]
      rfl
  simpa using accessesAt_flatMap_range hone m

/-- The first `m` blocks from block `i`, all read and then all written: each is read and then written. -/
theorem accessesAt_accessRun_read_write (addr b i m : Nat) :
    accessesAt (blockAddr addr b) (accessRun .read addr i m ++ accessRun .write addr i m) =
      if i ≤ b ∧ b < i + m then [⟨.read, blockAddr addr b⟩, ⟨.write, blockAddr addr b⟩] else [] := by
  rw [accessesAt_append, accessesAt_accessRun, accessesAt_accessRun]
  split <;> rfl

/-- A window accesses each of its four blocks by a read and then a write. -/
theorem accessesAt_windowAccesses (addr b i : Nat) :
    accessesAt (blockAddr addr b) (windowAccesses addr i) =
      if i ≤ b ∧ b < i + 4 then [⟨.read, blockAddr addr b⟩, ⟨.write, blockAddr addr b⟩] else [] :=
  accessesAt_accessRun_read_write addr b i 4

/-- A tail block is accessed by a read and then a write. -/
theorem accessesAt_tailAccesses (addr b i : Nat) :
    accessesAt (blockAddr addr b) (tailAccesses addr i) =
      if i ≤ b ∧ b < i + 1 then [⟨.read, blockAddr addr b⟩, ⟨.write, blockAddr addr b⟩] else [] :=
  accessesAt_accessRun_read_write addr b i 1

/-- The reference order reads each block of the buffer and then writes it, once each (R43). -/
theorem accessesAt_referenceAccesses {addr b n : Nat} (hb : b < n) :
    accessesAt (blockAddr addr b) (referenceAccesses addr n) =
      [⟨.read, blockAddr addr b⟩, ⟨.write, blockAddr addr b⟩] := by
  have hgroups := accessesAt_flatMap_range (i := 0) (c := 4)
    (fun g => by simpa using accessesAt_windowAccesses addr b (4 * g)) (n / 4)
  have htail := accessesAt_flatMap_range (i := 4 * (n / 4)) (c := 1)
    (fun t => by simpa using accessesAt_tailAccesses addr b (4 * (n / 4) + t)) (n % 4)
  rw [referenceAccesses, accessesAt_append, hgroups, htail]
  by_cases h : b < 4 * (n / 4)
  · rw [if_pos (by omega), if_neg (by omega), List.append_nil]
  · rw [if_neg (by omega), if_pos (by omega), List.nil_append]

/-- The reference order makes two accesses for each block. -/
theorem length_referenceAccesses (addr n : Nat) : (referenceAccesses addr n).length = 2 * n := by
  have hwindow (i : Nat) : (windowAccesses addr i).length = 8 := rfl
  have htail (i : Nat) : (tailAccesses addr i).length = 2 := rfl
  simp only [referenceAccesses, List.length_append, List.length_flatMap, hwindow, htail, List.map_const',
    List.sum_replicate, List.length_range, smul_eq_mul]
  omega

/-- Every access of the reference order is one to a block of the buffer. -/
theorem exists_block_of_mem_referenceAccesses {addr n : Nat} {x : Access}
    (hx : x ∈ referenceAccesses addr n) : ∃ b < n, x.addr = blockAddr addr b := by
  simp only [referenceAccesses, windowAccesses, tailAccesses, accessRun, List.mem_append,
    List.mem_flatMap, List.mem_map, List.mem_range, List.mem_cons, List.not_mem_nil, or_false] at hx
  rcases hx with ⟨g, hg, ⟨j, hj, rfl⟩ | ⟨j, hj, rfl⟩⟩ | ⟨t, ht, rfl | rfl⟩
  · exact ⟨4 * g + j, by omega, rfl⟩
  · exact ⟨4 * g + j, by omega, rfl⟩
  · exact ⟨4 * (n / 4) + t, by omega, rfl⟩
  · exact ⟨4 * (n / 4) + t, by omega, rfl⟩

/-- An access occurs as often in a sequence as among the accesses at its address. -/
theorem count_accessesAt (x : Access) (l : List Access) : (accessesAt x.addr l).count x = l.count x :=
  List.count_filter (by simp)

/-- Where the accesses at `a` are a read and then a write, the read comes before the write. -/
theorem idxOf_read_lt_idxOf_write {a : Nat} {l : List Access}
    (h : accessesAt a l = [⟨.read, a⟩, ⟨.write, a⟩]) : l.idxOf ⟨.read, a⟩ < l.idxOf ⟨.write, a⟩ := by
  induction l with
  | nil => cases h
  | cons x l ih =>
    rw [accessesAt_cons] at h
    by_cases hx : x.addr = a
    · rw [if_pos hx] at h
      obtain ⟨rfl, -⟩ := List.cons.inj h
      rw [List.idxOf_cons_self, List.idxOf_cons_ne _ (by simp)]
      omega
    · rw [if_neg hx] at h
      have hne : ∀ kind, x ≠ ⟨kind, a⟩ := fun kind heq => hx (congrArg Access.addr heq)
      rw [List.idxOf_cons_ne _ (hne .read), List.idxOf_cons_ne _ (hne .write)]
      exact Nat.succ_lt_succ (ih h)

/-- Settles O36: in the reference order the accesses at each block are its read and its write. -/
theorem eachBlockReadThenWrittenOnce : Obligations.EachBlockReadThenWrittenOnce := by
  refine ⟨fun i u addr n s hi hadm => ?_, fun i u addr n s => accesses_of_not_isAdmitted,
    fun i s hi => accesses_of_blockOperands_none hi s⟩
  rw [accessesInReferenceOrder i u addr n s hi hadm]
  refine ⟨length_referenceAccesses addr n, fun b hb => ?_,
    fun x hx => exists_block_of_mem_referenceAccesses hx⟩
  have hat := accessesAt_referenceAccesses (addr := addr) hb
  have hcount (kind : AccessKind) :
      (referenceAccesses addr n).count ⟨kind, blockAddr addr b⟩ = 1 := by
    rw [← count_accessesAt, hat]
    cases kind <;> simp
  exact ⟨hcount .read, hcount .write, idxOf_read_lt_idxOf_write hat⟩

end Sys2Proof.Machine
end

section
/-! PROOFS. The statements on the encoding of 30_encoding.md: the header and its fields (R62, R63, R74, R78),
decoder and encoder as inverses (R64 to R71), the operands by lanes and bytes (R65 to R70), the responses
(R72), EXPAND (R77), and what a step does with the words of a command and with a move of the host. -/

namespace Sys2Proof.Machine

/-! ### Lanes and bytes of a multi-word operand (R9, R70) -/

/-- The word of four lanes, first lane least significant (R70). -/
def wordOfLaneFn (l : Fin 4 → Lane) : Word := wordOfLanes (l 0) (l 1) (l 2) (l 3)

@[simp] theorem laneOf_wordOfLaneFn (l : Fin 4 → Lane) (j : Fin 4) : laneOf (wordOfLaneFn l) j = l j := by
  match j with
  | 0 => exact laneOf_wordOfLanes_zero ..
  | 1 => exact laneOf_wordOfLanes_one ..
  | 2 => exact laneOf_wordOfLanes_two ..
  | 3 => exact laneOf_wordOfLanes_three ..

/-- Byte `b` of the word of four lanes is byte `b mod 4` of lane `b div 4` (R65). -/
theorem byteOf_wordOfLaneFn (l : Fin 4 → Lane) (b : Nat) (hb : b < 16) :
    byteOf (wordOfLaneFn l) b = laneByte (l ⟨b / 4, by omega⟩) (b % 4) := by
  rw [byteOf_eq_laneByte, ← laneOf_wordOfLaneFn l ⟨b / 4, by omega⟩]

/-- Byte `i` of the lane of four bytes in a row (R9). -/
theorem laneByte_laneOfBytes (b : Nat → Byte) (a i : Nat) (hi : i < 4) :
    laneByte (laneOfBytes (b a) (b (a + 1)) (b (a + 2)) (b (a + 3))) i = b (a + i) := by
  unfold laneByte laneOfBytes
  match i, hi with
  | 0, _ => exact BitVec.extractLsb'_append_eq_right
  | 1, _ =>
    rw [BitVec.extractLsb'_append_eq_of_le (by decide)]
    exact BitVec.extractLsb'_append_eq_right
  | 2, _ =>
    iterate 2 rw [BitVec.extractLsb'_append_eq_of_le (by decide)]
    exact BitVec.extractLsb'_append_eq_right
  | 3, _ =>
    iterate 3 rw [BitVec.extractLsb'_append_eq_of_le (by decide)]
    exact BitVec.extractLsb'_eq_self

end Sys2Proof.Machine

namespace Sys2Proof

open Machine

/-! ### The fields of a header (R62) -/

/-- A channel word is its three header fields. -/
theorem header_ext {h h' : Lane} (hop : headerOp h = headerOp h') (hu : headerU h = headerU h')
    (hrsv : headerRsv h = headerRsv h') : h = h' := by
  apply BitVec.eq_of_getLsbD_eq
  intro i hi
  obtain hlt | rfl | hgt : i < 8 ∨ i = 8 ∨ 8 < i := by omega
  · have hbit := congrArg (BitVec.getLsbD · i) hop
    simpa [headerOp, hlt] using hbit
  · exact hu
  · have hbit := congrArg (BitVec.getLsbD · (i - 9)) hrsv
    have hsub : i - 9 < 23 := by omega
    have hadd : 9 + (i - 9) = i := by omega
    simpa [headerRsv, hsub, hadd] using hbit

@[simp] theorem headerOp_and (h m : Lane) : headerOp (h &&& m) = headerOp h &&& headerOp m := by
  simp [headerOp, BitVec.extractLsb'_and]

@[simp] theorem headerU_and (h m : Lane) : headerU (h &&& m) = (headerU h && headerU m) := by
  simp [headerU]

@[simp] theorem headerRsv_and (h m : Lane) : headerRsv (h &&& m) = headerRsv h &&& headerRsv m := by
  simp [headerRsv, BitVec.extractLsb'_and]

@[simp] theorem headerOp_headerWord (op : BitVec 8) (u : Bool) : headerOp (headerWord op u) = op := by
  apply BitVec.eq_of_getLsbD_eq
  intro i hi
  have h32 : i < 32 := by omega
  simp [headerOp, headerWord, hi, h32]

@[simp] theorem headerU_headerWord (op : BitVec 8) (u : Bool) : headerU (headerWord op u) = u := by
  simp [headerU, headerWord]

@[simp] theorem headerRsv_headerWord (op : BitVec 8) (u : Bool) : headerRsv (headerWord op u) = 0 := by
  apply BitVec.eq_of_getLsbD_eq
  intro i hi
  have hop : op.getLsbD (9 + i) = false := BitVec.getLsbD_of_ge _ _ (by omega)
  have hu : ¬ 9 + i - 8 = 0 := by omega
  simp [headerRsv, headerWord, hop, hu]

/-! ### The rows of the opcode table by the header fields (R63, R64, R74, R78) -/

/-- The value of `OP` of a row (R64). -/
def Opcode.code : Opcode → BitVec 8
  | .exp128 => 1
  | .exp256 => 2
  | .enc1 => 3
  | .enc4 => 4
  | .run => 5
  | .dbl => 6

/-- `U` may be 1 in a header of the row: it is one of a block command (R63). -/
def Opcode.hasVariant : Opcode → Bool
  | .exp128 => false
  | .exp256 => false
  | .enc1 => true
  | .enc4 => true
  | .run => true
  | .dbl => false

/-- The fields of the header are those of a legal header of the row (R62, R63, R74). -/
structure Opcode.HasHeader (op : Opcode) (h : Lane) : Prop where
  code    : headerOp h = op.code
  rsv     : headerRsv h = 0
  variant : op.hasVariant = false → headerU h = false

theorem Opcode.code_injective {op op' : Opcode} (h : op.code = op'.code) : op = op' := by
  revert h
  cases op <;> cases op' <;> decide

/-- Each opcode has its row in the table. -/
theorem exists_row (op : Opcode) : ∃ row ∈ opcodeTable, row.op = op := by
  cases op <;> decide

/-- A row compares `OP` and `RSV` in full, and `U` where the row has no variants. -/
theorem opcodeTable_fields : ∀ row ∈ opcodeTable,
    (headerOp row.mask = BitVec.allOnes 8 ∧ headerOp row.value = row.op.code) ∧
      (headerU row.mask = !row.op.hasVariant ∧ headerU row.value = false) ∧
      headerRsv row.mask = BitVec.allOnes 23 ∧ headerRsv row.value = 0 := by
  decide

/-- A header matches a row exactly when its fields are those of a legal header of that row. -/
theorem row_matches_iff {row : OpcodeRow} (hrow : row ∈ opcodeTable) (h : Lane) :
    h &&& row.mask = row.value ↔ row.op.HasHeader h := by
  obtain ⟨⟨hopm, hopv⟩, ⟨hum, huv⟩, hrsvm, hrsvv⟩ := opcodeTable_fields row hrow
  have hop : headerOp (h &&& row.mask) = headerOp h := by rw [headerOp_and, hopm, BitVec.and_allOnes]
  have hrsv : headerRsv (h &&& row.mask) = headerRsv h := by
    rw [headerRsv_and, hrsvm, BitVec.and_allOnes]
  have hu : headerU (h &&& row.mask) = (headerU h && !row.op.hasVariant) := by rw [headerU_and, hum]
  constructor
  · intro heq
    rw [heq] at hop hrsv hu
    refine ⟨hop.symm.trans hopv, hrsv.symm.trans hrsvv, fun hv => ?_⟩
    rw [huv, hv] at hu
    simpa using hu.symm
  · intro ⟨hop', hrsv', hu'⟩
    refine header_ext (hop.trans (hop'.trans hopv.symm)) ?_ (hrsv.trans (hrsv'.trans hrsvv.symm))
    rw [hu, huv]
    cases hv : row.op.hasVariant with
    | true => simp
    | false => simp [hu' hv]

/-- A header selects no row exactly when it is not a legal header of any opcode (R74). -/
theorem selectOpcode_eq_none_iff (h : Lane) : selectOpcode h = none ↔ ∀ op : Opcode, ¬ op.HasHeader h := by
  simp only [selectOpcode, Option.map_eq_none_iff, List.find?_eq_none, beq_iff_eq]
  constructor
  · intro hnone op hop
    obtain ⟨row, hrow, rfl⟩ := exists_row op
    exact hnone row hrow ((row_matches_iff hrow h).2 hop)
  · intro hnone row hrow heq
    exact hnone row.op ((row_matches_iff hrow h).1 heq)

/-- A header selects the opcode of which it is a legal header (R78). -/
theorem selectOpcode_eq_some_iff (h : Lane) (op : Opcode) :
    selectOpcode h = some op ↔ op.HasHeader h := by
  have hsound {op : Opcode} (hs : selectOpcode h = some op) : op.HasHeader h := by
    obtain ⟨row, hfind, rfl⟩ := Option.map_eq_some_iff.1 hs
    exact (row_matches_iff (List.mem_of_find?_eq_some hfind) h).1 (by simpa using List.find?_some hfind)
  refine ⟨hsound, fun hop => ?_⟩
  cases hs : selectOpcode h with
  | none => exact absurd hop ((selectOpcode_eq_none_iff h).1 hs op)
  | some op' => rw [Opcode.code_injective ((hsound hs).code.symm.trans hop.code)]

/-- A legal header of an opcode is the header word of its code and of the variant (R62). -/
theorem Opcode.HasHeader.eq_headerWord {op : Opcode} {h : Lane} (hop : op.HasHeader h) :
    h = headerWord op.code (headerU h) := by
  apply header_ext
  · rw [headerOp_headerWord, hop.code]
  · rw [headerU_headerWord]
  · rw [headerRsv_headerWord, hop.rsv]

/-- The header words an opcode has a row for (R62, R63). -/
theorem selectOpcode_code {op : Opcode} {u : Bool} (hu : op.hasVariant = false → u = false) :
    selectOpcode (headerWord op.code u) = some op :=
  (selectOpcode_eq_some_iff _ op).2 ⟨headerOp_headerWord .., headerRsv_headerWord .., by simpa using hu⟩

/-- The six values of `OP` are 1 to 6 (R64). -/
theorem exists_code_iff (b : BitVec 8) : (∃ op : Opcode, op.code = b) ↔ 1 ≤ b.toNat ∧ b.toNat ≤ 6 := by
  constructor
  · rintro ⟨op, rfl⟩
    cases op <;> decide
  · intro ⟨hlo, hhi⟩
    obtain h | h | h | h | h | h : b.toNat = 1 ∨ b.toNat = 2 ∨ b.toNat = 3 ∨ b.toNat = 4 ∨ b.toNat = 5 ∨
      b.toNat = 6 := by omega
    · exact ⟨.exp128, BitVec.eq_of_toNat_eq h.symm⟩
    · exact ⟨.exp256, BitVec.eq_of_toNat_eq h.symm⟩
    · exact ⟨.enc1, BitVec.eq_of_toNat_eq h.symm⟩
    · exact ⟨.enc4, BitVec.eq_of_toNat_eq h.symm⟩
    · exact ⟨.run, BitVec.eq_of_toNat_eq h.symm⟩
    · exact ⟨.dbl, BitVec.eq_of_toNat_eq h.symm⟩

/-- The opcodes without variants are 1, 2 and 6 (R63). -/
theorem hasVariant_eq_false_iff (op : Opcode) :
    op.hasVariant = false ↔ op.code = 1 ∨ op.code = 2 ∨ op.code = 6 := by
  cases op <;> decide

/-- The headers that are illegal, by their fields (R74). -/
theorem selectOpcode_eq_none_iff_fields (h : Lane) :
    selectOpcode h = none ↔
      ¬ (1 ≤ (headerOp h).toNat ∧ (headerOp h).toNat ≤ 6) ∨ headerRsv h ≠ 0 ∨
        (headerU h = true ∧ (headerOp h = 1 ∨ headerOp h = 2 ∨ headerOp h = 6)) := by
  rw [selectOpcode_eq_none_iff, ← exists_code_iff]
  constructor
  · intro hnone
    by_contra! hlegal
    obtain ⟨⟨op, hop⟩, hrsv, hu⟩ := hlegal
    refine hnone op ⟨hop.symm, hrsv, fun hv => Bool.eq_false_iff.2 fun hu1 => ?_⟩
    obtain ⟨hne1, hne2, hne6⟩ := hu hu1
    rw [hasVariant_eq_false_iff, hop] at hv
    exact hv.elim hne1 fun hv => hv.elim hne2 hne6
  · rintro hillegal op ⟨hop, hrsv, hu⟩
    rw [hasVariant_eq_false_iff, ← hop] at hu
    rcases hillegal with hcode | hrsv1 | ⟨hu1, hop1⟩
    · exact hcode ⟨op, hop.symm⟩
    · exact hrsv1 hrsv
    · exact Bool.noConfusion (hu1.symm.trans (hu hop1))

/-! ### Decoder and encoder are inverse to each other (R64 to R71) -/

/-- The decoder reads a command exactly when the header is of a row and the payload is there. -/
theorem decode_cons_eq_ok_iff (h : Lane) (ws rest : List Lane) (i : Instr) :
    decode (h :: ws) = .ok (i, rest) ↔
      ∃ op, selectOpcode h = some op ∧ readPayload (headerU h) op ws = some (i, rest) := by
  cases hs : selectOpcode h with
  | none => simp [decode_of_no_row hs]
  | some op =>
    rw [decode_of_row hs]
    cases hr : readPayload (headerU h) op ws <;> simp [hr]

/-- A header is illegal exactly when it selects no row. -/
theorem decode_eq_illegalHeader_iff (h : Lane) (ws : List Lane) :
    decode (h :: ws) = .error (.illegalHeader h) ↔ selectOpcode h = none := by
  cases hs : selectOpcode h with
  | none => simp [decode_of_no_row hs]
  | some op =>
    rw [decode_of_row hs]
    cases readPayload (headerU h) op ws <;> simp

/-- Decoding a header word of an opcode is reading its payload. -/
theorem decode_headerWord {op : Opcode} {u : Bool} {ws rest : List Lane} {i : Instr}
    (hu : op.hasVariant = false → u = false) (h : readPayload u op ws = some (i, rest)) :
    decode (headerWord op.code u :: ws) = .ok (i, rest) :=
  (decode_cons_eq_ok_iff ..).2 ⟨op, selectOpcode_code hu, by rwa [headerU_headerWord]⟩

theorem operandWords_eq (W : Word) :
    operandWords W = [laneOf W 0, laneOf W 1, laneOf W 2, laneOf W 3] := rfl

/-- The operand words of four lanes are the lanes (R70). -/
@[simp] theorem operandWords_wordOfLanes (a b c d : Lane) :
    operandWords (wordOfLanes a b c d) = [a, b, c, d] := by
  simp [operandWords_eq]

/-- An address that fits is the unsigned value of its word (R67). -/
theorem toNat_ofNat_of_addressFits {addr : Nat} (h : addressFits addr = true) :
    (BitVec.ofNat 32 addr).toNat = addr :=
  (BitVec.toNat_ofNat ..).trans (Nat.mod_eq_of_lt (of_decide_eq_true h))

/-- A count that fits is the unsigned value of its word (R68). -/
theorem toNat_ofNat_of_countFits {n : Nat} (h : countFits n = true) : (BitVec.ofNat 32 n).toNat = n :=
  (BitVec.toNat_ofNat ..).trans (Nat.mod_eq_of_lt (of_decide_eq_true h))

/-- The unsigned value of a channel word fits the address operand and the count operand. -/
theorem operandFits_toNat (w : Lane) : addressFits w.toNat = true ∧ countFits w.toNat = true :=
  ⟨decide_eq_true w.isLt, decide_eq_true w.isLt⟩

/-- Settles O1: the header of each command selects its row, and its payload reads back operand by operand. -/
theorem decodeOfEncode : Obligations.DecodeOfEncode := by
  intro i rest hwf
  cases i with
  | exp128 kw0 =>
    exact decode_headerWord (op := .exp128) (fun _ => rfl) (by simp [operandWords_eq, readPayload])
  | exp256 kw0 kw1 =>
    exact decode_headerWord (op := .exp256) (fun _ => rfl) (by simp [operandWords_eq, readPayload])
  | enc1 u addr =>
    exact decode_headerWord (op := .enc1) nofun (by simp [readPayload, toNat_ofNat_of_addressFits hwf])
  | enc4 u addr =>
    exact decode_headerWord (op := .enc4) nofun (by simp [readPayload, toNat_ofNat_of_addressFits hwf])
  | run u addr n =>
    obtain ⟨haddr, hn⟩ := Bool.and_eq_true_iff.1 hwf
    exact decode_headerWord (op := .run) nofun
      (by simp [readPayload, toNat_ofNat_of_addressFits haddr, toNat_ofNat_of_countFits hn])
  | dbl x =>
    exact decode_headerWord (op := .dbl) (fun _ => rfl) (by simp [operandWords_eq, readPayload])

/-- A command read from a payload is well-formed, and its words are the header word of its opcode and
the payload words read. -/
theorem encode_of_readPayload {u : Bool} {op : Opcode} {ws rest : List Lane} {i : Instr}
    (h : readPayload u op ws = some (i, rest)) (hu : op.hasVariant = false → u = false) :
    WellFormed i = true ∧ encode i ++ rest = headerWord op.code u :: ws := by
  unfold readPayload at h
  split at h <;> cases h
  case h_1 | h_2 | h_6 => simp [WellFormed, encode, Opcode.code, hu rfl]
  case h_3 | h_4 | h_5 => simp [WellFormed, encode, Opcode.code, operandFits_toNat]

/-- Settles O2: the header is the header word of the row it selects, and the payload encodes what was
read from it. -/
theorem encodeOfDecode : Obligations.EncodeOfDecode := by
  intro ws rest i hd
  cases ws with
  | nil => cases hd
  | cons h ws =>
    obtain ⟨op, hs, hread⟩ := (decode_cons_eq_ok_iff h ws rest i).1 hd
    have hop := (selectOpcode_eq_some_iff h op).1 hs
    have hwords := encode_of_readPayload hread hop.variant
    rwa [← hop.eq_headerWord] at hwords

/-! ### The operands (R65 to R69) -/

/-- Settles O5: the key operands are the words of the lanes that follow the headers 1 and 2. -/
theorem keyOperands : Obligations.KeyOperands := by
  refine ⟨fun k rest => ⟨wordOfLaneFn k, ?_, laneOf_wordOfLaneFn k, byteOf_wordOfLaneFn k⟩,
    fun k rest => ⟨wordOfLaneFn fun j => k (j.castAdd 4), wordOfLaneFn fun j => k (j.addNat 4), ?_,
      fun j hj => ?_, fun b hb => ?_⟩⟩
  · exact decode_headerWord (op := .exp128) (u := false) (fun _ => rfl) rfl
  · exact decode_headerWord (op := .exp256) (u := false) (fun _ => rfl) rfl
  · exact ⟨laneOf_wordOfLaneFn _ ⟨j, hj⟩, laneOf_wordOfLaneFn _ ⟨j, hj⟩⟩
  · exact ⟨byteOf_wordOfLaneFn _ b hb, byteOf_wordOfLaneFn _ b hb⟩

/-- Settles O6: each of the six header words is that of its opcode and variant, and every payload word is
read as its unsigned value. -/
theorem addressAndCountOperands : Obligations.AddressAndCountOperands := fun _ _ _ =>
  ⟨decode_headerWord (op := .enc1) (u := false) nofun rfl,
    decode_headerWord (op := .enc1) (u := true) nofun rfl,
    decode_headerWord (op := .enc4) (u := false) nofun rfl,
    decode_headerWord (op := .enc4) (u := true) nofun rfl,
    decode_headerWord (op := .run) (u := false) nofun rfl,
    decode_headerWord (op := .run) (u := true) nofun rfl⟩

/-- Settles O7: the operand is the word of the lanes that follow the header 6. -/
theorem fieldOperand : Obligations.FieldOperand := by
  intro x rest
  refine ⟨wordOfLaneFn x, ?_, laneOf_wordOfLaneFn x, ?_, ?_, fun b hx => word_ext_bytes fun k hk => ?_⟩
  · exact decode_headerWord (op := .dbl) (u := false) (fun _ => rfl) rfl
  · rw [getLsbD_eq_laneOf, ← laneOf_wordOfLaneFn x 3]
    rfl
  · rw [getLsbD_eq_laneOf, ← laneOf_wordOfLaneFn x 0]
    rfl
  · rw [byteOf_wordOfBytes b k hk, byteOf_wordOfLaneFn x k hk, hx,
      laneByte_laneOfBytes b _ _ (Nat.mod_lt k (by decide)), Nat.div_add_mod]

end Sys2Proof

namespace Sys2Proof.Machine

/-! ### Illegal headers (R74) -/

/-- Taking a fault when none is recorded (R186). -/
theorem raiseFault_of_flt_eq_zero {s : State} (h : s.flt = 0) (c : FaultCode) :
    raiseFault c s = { s with flt := c.code, resp := s.resp ++ [statusWord c.code] } := by
  simp only [raiseFault, fltAfter, h, if_true]
  rfl

/-- The core takes an illegal header alone and faults (R74). -/
theorem coreMove_of_illegalHeader {s : State} {w : Lane} (hflt : s.flt = 0)
    (hd : decode (s.frame ++ s.cmd) = .error (.illegalHeader w)) :
    coreMove s = .next
      { s with frame := [], cmd := (s.frame ++ s.cmd).drop 1, flt := 1, resp := s.resp ++ [1] } := by
  rw [coreMove_of_not_faulted hflt, hd]
  dsimp only
  rw [raiseFault_of_flt_eq_zero (s := { s with frame := [], cmd := _ }) hflt]
  rfl

/-- Settles O3: an illegal header is one of no row, and on it the core takes the header and faults. -/
theorem illegalHeaders : Obligations.IllegalHeaders := by
  refine ⟨fun h ws => ?_, fun s h ws hhost hflt hframe hcmd hd => ?_, fun ws => ?_, fun ws => ?_⟩
  · rw [decode_eq_illegalHeader_iff, selectOpcode_eq_none_iff_fields]
  · have htaken : s.frame ++ s.cmd = h :: ws := by rw [hframe, hcmd, List.nil_append]
    rw [step_of_host_nil hhost, coreMove_of_illegalHeader hflt (htaken ▸ hd), htaken]
    simp only [hframe, List.drop_one, List.tail_cons]
  · exact decode_of_no_row (by decide) ws
  · exact decode_of_no_row (by decide) ws

/-! ### Responses (R72) -/

/-- A block command that meets no recorded fault sends one status word, the `FLT` it leaves (R72). -/
theorem blockCommand_resp {s : State} (h : s.flt = 0) (u : Bool) (addr n : Nat) (body : BlockBody) :
    (blockCommand u addr n body s).resp =
      s.resp ++ [statusWord (blockCommand u addr n body s).flt] := by
  rcases blockCommand_cases u addr n body s with ⟨c, -, heq⟩ | ⟨-, heq⟩
  · rw [heq, raiseFault_of_flt_eq_zero h]
  · rw [heq, respondOk_resp, respondOk_flt, h]

/-- Settles O45: EXP sends status 0, a block command the `FLT` it leaves, DBL its five words. -/
theorem oneResponsePerCommand : Obligations.OneResponsePerCommand := by
  intro i s t hflt hexec
  cases i with
  | exp128 kw0 => rw [exec_exp128_iff] at hexec; subst hexec; exact .inr ⟨nofun, by rw [hflt]; rfl⟩
  | exp256 kw0 kw1 => rw [exec_exp256_iff] at hexec; subst hexec; exact .inr ⟨nofun, by rw [hflt]; rfl⟩
  | enc1 u addr => rw [exec_enc1_iff] at hexec; subst hexec; exact .inr ⟨nofun, blockCommand_resp hflt ..⟩
  | enc4 u addr => rw [exec_enc4_iff] at hexec; subst hexec; exact .inr ⟨nofun, blockCommand_resp hflt ..⟩
  | run u addr n => rw [exec_run_iff] at hexec; subst hexec; exact .inr ⟨nofun, blockCommand_resp hflt ..⟩
  | dbl x => rw [exec_dbl_iff] at hexec; subst hexec; exact .inl ⟨x, rfl, hflt, rfl⟩

/-! ### EXPAND (R77) -/

/-- Settles O9: the three cases of the key length. -/
theorem expandByKeyLength : Obligations.ExpandByKeyLength := by
  intro key
  refine ⟨fun h16 => ?_, fun h32 => ?_, fun h16 h32 => ?_⟩
  · rw [expandKey, if_pos h16]
  · rw [expandKey, if_neg (by omega), if_pos h32]
  · rw [expandKey, if_neg h16, if_neg h32]

/-! ### Steps of the core and of the host (R7, R60, R61, R71, R208) -/

/-- The move of a core that has a whole command is the execution of that command (R61, R71). -/
theorem coreMove_of_decode_ok {s : State} {i : Instr} {rest : List Lane} (hflt : s.flt = 0)
    (hd : decode (s.frame ++ s.cmd) = .ok (i, rest)) :
    coreMove s = exec i { s with frame := [], cmd := rest } := by
  rw [coreMove_of_not_faulted hflt, hd]

/-- Where the core has a move, leaving the turn to it is that move. -/
theorem hostMove_coreTurn_of_next {s t : State} (h : coreMove s = .next t) : hostMove .coreTurn s = t := by
  rw [hostMove, h]

/-- Settles O10: the core's move is the execution of the decoded command, whoever gives it the turn. -/
theorem stepRunsTheDecodedCommand : Obligations.StepRunsTheDecodedCommand := by
  intro s i rest hflt _ hd
  refine ⟨fun hhost => ?_, fun hs hhost => ?_⟩
  · rw [step_of_host_nil hhost, coreMove_of_decode_ok hflt hd]
  · have hmove := coreMove_of_decode_ok (s := { s with host := hs }) hflt hd
    obtain ⟨t, ht⟩ := exec_next i { s with frame := [], cmd := rest, host := hs }
    rw [step_of_host_cons hhost, hostMove_coreTurn_of_next (hmove.trans ht), ht]

/-- Settles O52: each move of the host is an update of the state, and a byte written is read back. -/
theorem hostMoves : Obligations.HostMoves := by
  refine ⟨fun s w hs hhost => step_of_host_cons hhost, fun s w ws hs hhost hresp => ?_,
    fun s a b hs hhost => ?_, fun s rs hs hhost => step_of_host_cons hhost⟩
  · rw [step_of_host_cons hhost, hostMove, hresp]
    rfl
  · exact ⟨_, step_of_host_cons hhost, fun x => readByte_writeByte s.mem a.toNat x b,
      ⟨rfl, rfl⟩, rfl, rfl, rfl, rfl, rfl, rfl⟩

end Sys2Proof.Machine
end

section
/-! PROOFS. The statements on the AES primitives of 40_aes_primitives.md: the byte field and the S-box
(R86 to R89), the four steps of a round (R91 to R94), the rounds and the cipher (R96 to R99). -/

namespace Sys2Proof.Machine

/-! ### Products in the byte field (R86) -/

theorem gmul_one (a : Byte) : gmul a 1 = a := by
  simp [gmul, List.range_succ, xtimes, BitVec.getLsbD_one]

theorem gmul_two (a : Byte) : gmul a 2 = xtime a := by
  simp [gmul, List.range_succ, xtimes]

theorem gmul_three (a : Byte) : gmul a 3 = xtime a ^^^ a := by
  simp [gmul, List.range_succ, xtimes, BitVec.xor_comm]

/-- Settles O13: 1, 2 and 3 have at most two bits, and the worked values are computed. -/
theorem byteFieldProducts : Obligations.ByteFieldProducts :=
  ⟨fun a => ⟨gmul_one a, gmul_two a, gmul_three a⟩, by decide⟩

/-! ### The S-box (R87 to R89) -/

/-- What takes evaluating the field inverse, in one pass over the bytes: it is an inverse, and the table
of R89 is the formula of R88. -/
theorem ginv_inverse_and_sbox (a : Byte) : (a ≠ 0 → gmul a (ginv a) = 1) ∧ sbox a = aff (ginv a) := by
  revert a; decide +kernel

theorem getLsbD_aff (b : Byte) (i : Nat) (hi : i < 8) : (aff b).getLsbD i = affBit b i := by
  unfold aff
  interval_cases i <;> simp [List.range_succ]

/-- The table of the inverse S-box, laid out as the table of R89. -/
def invSboxRows : List Word :=
  [0x52096ad53036a538bf40a39e81f3d7fb,
   0x7ce339829b2fff87348e4344c4dee9cb,
   0x547b9432a6c2233dee4c950b42fac34e,
   0x082ea16628d924b2765ba2496d8bd125,
   0x72f8f66486689816d4a45ccc5d65b692,
   0x6c704850fdedb9da5e154657a78d9d84,
   0x90d8ab008cbcd30af7e45805b8b34506,
   0xd02c1e8fca3f0f02c1afbd0301138a6b,
   0x3a9111414f67dcea97f2cfcef0b4e673,
   0x96ac7422e7ad3585e2f937e81c75df6e,
   0x47f11a711d29c5896fb7620eaa18be1b,
   0xfc563e4bc6d279209adbc0fe78cd5af4,
   0x1fdda8338807c731b11210592780ec5f,
   0x60517fa919b54a0d2de57a9f93c99cef,
   0xa0e03b4dae2af5b0c8ebbb3c83539961,
   0x172b047eba77d626e169146355210c7d]

/-- The inverse S-box. -/
def invSbox (b : Byte) : Byte := byteOf (invSboxRows.getD (b.toNat / 16) 0) (15 - b.toNat % 16)

theorem invSbox_sbox : Function.LeftInverse invSbox sbox := by
  unfold Function.LeftInverse; decide +kernel

theorem sbox_invSbox : Function.RightInverse invSbox sbox := by
  unfold Function.RightInverse Function.LeftInverse; decide +kernel

theorem sbox_bijective : Function.Bijective sbox := ⟨invSbox_sbox.injective, sbox_invSbox.surjective⟩

/-- Settles O14: the formula is checked against the table byte by byte, and the table has an inverse. -/
theorem sboxIsAffineInverse : Obligations.SboxIsAffineInverse :=
  ⟨by decide, fun a => (ginv_inverse_and_sbox a).1, getLsbD_aff, fun a => (ginv_inverse_and_sbox a).2,
    sbox_bijective, by decide +kernel⟩

/-! ### The four steps of a round by bytes (R91 to R94) -/

@[simp] theorem byteOf_subBytes (s : Word) {k : Nat} (hk : k < 16) :
    byteOf (subBytes s) k = sbox (byteOf s k) :=
  byteOf_wordOfBytes _ k hk

@[simp] theorem byteOf_shiftRows (s : Word) {k : Nat} (hk : k < 16) :
    byteOf (shiftRows s) k = byteOf s (k % 4 + 4 * ((k / 4 + k % 4) % 4)) :=
  byteOf_wordOfBytes _ k hk

section
variable (s : Word) {r c : Nat} (hr : r < 4) (hc : c < 4)
include hr hc

/-- Row `r`, column `c` after ShiftRows (R92). -/
theorem byteOf_shiftRows_row : byteOf (shiftRows s) (r + 4 * c) = byteOf s (r + 4 * ((c + r) % 4)) := by
  have hdiv : (r + 4 * c) / 4 = c := by omega
  have hmod : (r + 4 * c) % 4 = r := by omega
  rw [byteOf_shiftRows _ (by omega), hdiv, hmod]

/-- Row `r`, column `c` after MixColumns (R93). -/
theorem byteOf_mixColumns :
    byteOf (mixColumns s) (4 * c + r) =
      mixColumn (byteOf s (4 * c)) (byteOf s (4 * c + 1)) (byteOf s (4 * c + 2)) (byteOf s (4 * c + 3)) r := by
  have hdiv : (4 * c + r) / 4 = c := by omega
  have hmod : (4 * c + r) % 4 = r := by omega
  rw [mixColumns, byteOf_wordOfBytes _ _ (by omega)]
  simp only [hdiv, hmod]

end

/-- Two words that agree in every row of every column are equal. -/
theorem word_ext_columns {V W : Word} (h : ∀ c < 4, ∀ r < 4, byteOf V (4 * c + r) = byteOf W (4 * c + r)) :
    V = W :=
  word_ext_bytes fun k hk => Nat.div_add_mod k 4 ▸ h (k / 4) (by omega) (k % 4) (Nat.mod_lt k (by decide))

theorem shiftRows_subBytes (s : Word) : shiftRows (subBytes s) = subBytes (shiftRows s) := by
  refine word_ext_columns fun c hc r hr => ?_
  rw [byteOf_subBytes _ (by omega), Nat.add_comm, byteOf_shiftRows_row _ hr hc, byteOf_shiftRows_row _ hr hc,
    byteOf_subBytes _ (by omega)]

/-- Settles O15: both steps are known by their bytes, and the two orders agree in every byte. -/
theorem subBytesAndShiftRows : Obligations.SubBytesAndShiftRows := by
  refine ⟨fun s k hk => byteOf_subBytes s hk, fun s r hr c hc => byteOf_shiftRows_row s hr hc, fun s => ?_,
    shiftRows_subBytes, by decide +kernel, by decide +kernel⟩
  simp [wordToBytes, List.range_succ]

/-- Settles O16: each clause is a row of the mixed column. -/
theorem mixColumnsByColumn : Obligations.MixColumnsByColumn := by
  refine ⟨fun s c hc => ⟨?_, ?_, ?_, ?_⟩, by decide +kernel, by decide +kernel⟩
  · exact byteOf_mixColumns s (r := 0) (by decide) hc
  · exact byteOf_mixColumns s (r := 1) (by decide) hc
  · exact byteOf_mixColumns s (r := 2) (by decide) hc
  · exact byteOf_mixColumns s (r := 3) (by decide) hc

/-! ### The rounds and the cipher by bytes (R96 to R98) -/

/-- Row `r`, column `c` after SubBytes and ShiftRows: the byte `a r` of R96. -/
theorem byteOf_shiftRows_subBytes (s : Word) {r c : Nat} (hr : r < 4) (hc : c < 4) :
    byteOf (shiftRows (subBytes s)) (4 * c + r) = sbox (byteOf s (r + 4 * ((c + r) % 4))) := by
  rw [Nat.add_comm, byteOf_shiftRows_row _ hr hc, byteOf_subBytes _ (by omega)]

theorem byteOf_round (s k : Word) {r c : Nat} (hr : r < 4) (hc : c < 4) :
    let a (i : Nat) : Byte := sbox (byteOf s (i + 4 * ((c + i) % 4)))
    byteOf (round s k) (4 * c + r) = mixColumn (a 0) (a 1) (a 2) (a 3) r ^^^ byteOf k (4 * c + r) := by
  intro a
  have ha (i : Nat) (hi : i < 4) : byteOf (shiftRows (subBytes s)) (4 * c + i) = a i :=
    byteOf_shiftRows_subBytes s hi hc
  rw [round, addRoundKey, byteOf_xor, byteOf_mixColumns _ hr hc, ← ha 0 (by decide), ← ha 1 (by decide),
    ← ha 2 (by decide), ← ha 3 (by decide)]
  rfl

theorem byteOf_finalRound (s k : Word) {r c : Nat} (hr : r < 4) (hc : c < 4) :
    byteOf (finalRound s k) (4 * c + r) =
      sbox (byteOf s (r + 4 * ((c + r) % 4))) ^^^ byteOf k (4 * c + r) := by
  rw [finalRound, addRoundKey, byteOf_xor, byteOf_shiftRows_subBytes s hr hc]

/-- Any sequence of states that follows the rounds ends where `rounds` does. -/
theorem rounds_eq_of_follows {rk x : Nat → Word} {r m : Nat}
    (h : ∀ i, r < i → i ≤ r + m → x i = round (x (i - 1)) (rk i)) :
    rounds rk (r + 1) m (x r) = x (r + m) := by
  induction m generalizing r with
  | zero => rfl
  | succ m ih =>
    have hfirst : x (r + 1) = round (x r) (rk (r + 1)) := h (r + 1) (by omega) (by omega)
    rw [rounds, ← hfirst, ih fun i h1 h2 => h i (by omega) (by omega), Nat.add_right_comm, Nat.add_assoc]

/-- Settles O57: a round by its rows, and the cipher along any sequence of states that follows it. -/
theorem roundsAndCipher : Obligations.RoundsAndCipher := by
  refine ⟨fun s k => ⟨rfl, rfl⟩, fun s k c hc => ⟨?_, ?_, ?_, ?_, fun r hr => ?_⟩,
    fun nr rk x s hnr h0 hstep => ?_⟩
  · exact byteOf_round s k (r := 0) (by decide) hc
  · exact byteOf_round s k (r := 1) (by decide) hc
  · exact byteOf_round s k (r := 2) (by decide) hc
  · exact byteOf_round s k (r := 3) (by decide) hc
  · exact byteOf_finalRound s k hr hc
  · have hlast : rounds rk 1 (nr - 1) (x 0) = x (0 + (nr - 1)) :=
      rounds_eq_of_follows fun i h1 h2 => hstep i h1 (by omega)
    rw [cipher, addRoundKey, ← h0, hlast, Nat.zero_add]

/-! ### The cipher as a bijection (R99) -/

/-- A map that done four times does nothing is a bijection. -/
theorem bijective_of_involutive_twice {α : Type} {f : α → α} (h : Function.Involutive (f ∘ f)) :
    Function.Bijective f :=
  ⟨h.injective.of_comp, h.surjective.of_comp⟩

theorem addRoundKey_bijective (k : Word) : Function.Bijective (addRoundKey · k) :=
  Function.Involutive.bijective fun s => by simp [addRoundKey]

theorem subBytes_bijective : Function.Bijective subBytes := by
  refine ⟨fun s t h => word_ext_bytes fun k hk => sbox_bijective.injective ?_, fun t => ?_⟩
  · rw [← byteOf_subBytes s hk, ← byteOf_subBytes t hk, h]
  · refine ⟨wordOfBytes fun k => invSbox (byteOf t k), word_ext_bytes fun k hk => ?_⟩
    rw [byteOf_subBytes _ hk, byteOf_wordOfBytes _ _ hk, sbox_invSbox]

/-- Four shifts move row `r` by `4r` columns. -/
theorem shiftRows_bijective : Function.Bijective shiftRows := by
  refine bijective_of_involutive_twice fun s => word_ext_columns fun c hc r hr => ?_
  have hmod (i : Nat) : i % 4 < 4 := Nat.mod_lt i (by decide)
  have hcol : ((((c + r) % 4 + r) % 4 + r) % 4 + r) % 4 = c := by omega
  simp only [Function.comp_apply]
  rw [Nat.add_comm, byteOf_shiftRows_row _ hr hc]
  iterate 3 rw [byteOf_shiftRows_row _ hr (hmod _)]
  rw [hcol]

theorem byte_xor_left_comm (a b c : Byte) : a ^^^ (b ^^^ c) = b ^^^ (a ^^^ c) := by ac_rfl

theorem byte_xor_cancel_left (a b : Byte) : a ^^^ (a ^^^ b) = b := by
  rw [← BitVec.xor_assoc, BitVec.xor_self, BitVec.zero_xor]

/-- `xtime` is linear: its shift is, and so is the choice of the reduction by bit 7. -/
theorem xtime_xor (a b : Byte) : xtime (a ^^^ b) = xtime a ^^^ xtime b := by
  simp only [xtime, BitVec.shiftLeft_xor_distrib, BitVec.getLsbD_xor]
  cases a.getLsbD 7 <;> cases b.getLsbD 7 <;> grind

/-- The sum of the four bytes of column `c`. -/
def columnSum (s : Word) (c : Nat) : Byte :=
  byteOf s (4 * c) ^^^ byteOf s (4 * c + 1) ^^^ byteOf s (4 * c + 2) ^^^ byteOf s (4 * c + 3)

/-- A mixed byte from the sum `t` of its column, the byte `a` that was there and the next byte `b`. -/
def mixByte (t a b : Byte) : Byte := a ^^^ (t ^^^ xtime (a ^^^ b))

/-- A byte mixed twice, from the byte `a` that was there and the byte `c` two rows away. -/
def mixByteTwice (a c : Byte) : Byte := a ^^^ xtime (xtime (a ^^^ c))

/-- The four rows of R93 in one form: `2a + 3b + c + d = a + (a + b + c + d) + 2(a + b)`. -/
theorem byteOf_mixColumns_eq_mixByte (s : Word) {r c : Nat} (hr : r < 4) (hc : c < 4) :
    byteOf (mixColumns s) (4 * c + r) =
      mixByte (columnSum s c) (byteOf s (4 * c + r)) (byteOf s (4 * c + (r + 1) % 4)) := by
  rw [byteOf_mixColumns s hr hc, mixByte, columnSum, xtime_xor]
  interval_cases r <;>
    simp only [mixColumn, gmul_two, gmul_three, Nat.add_zero, Nat.reduceAdd, Nat.reduceMod] <;>
    grind

/-- Mixing keeps the sum of a column. -/
theorem columnSum_mixColumns (s : Word) {c : Nat} (hc : c < 4) :
    columnSum (mixColumns s) c = columnSum s c := by
  have hsum (t a b c d : Byte) :
      mixByte t a b ^^^ mixByte t b c ^^^ mixByte t c d ^^^ mixByte t d a = a ^^^ b ^^^ c ^^^ d := by
    simp only [mixByte, xtime_xor, BitVec.xor_assoc, BitVec.xor_comm, byte_xor_left_comm,
      byte_xor_cancel_left, BitVec.xor_self, BitVec.xor_zero]
  have hrow {r : Nat} (hr : r < 4) := byteOf_mixColumns_eq_mixByte s hr hc
  have hrow0 : byteOf (mixColumns s) (4 * c) = _ := hrow (r := 0) (by decide)
  rw [columnSum, hrow0, hrow (by decide), hrow (by decide), hrow (by decide)]
  exact hsum ..

theorem mixByte_mixByte (t a b c : Byte) : mixByte t (mixByte t a b) (mixByte t b c) = mixByteTwice a c := by
  simp only [mixByte, mixByteTwice, xtime_xor, BitVec.xor_assoc, byte_xor_left_comm, byte_xor_cancel_left]

theorem mixByteTwice_mixByteTwice (a c : Byte) : mixByteTwice (mixByteTwice a c) (mixByteTwice c a) = a := by
  simp only [mixByteTwice, xtime_xor, BitVec.xor_comm, byte_xor_left_comm, BitVec.xor_self, BitVec.xor_zero]

theorem byteOf_mixColumns_mixColumns (s : Word) {r c : Nat} (hr : r < 4) (hc : c < 4) :
    byteOf (mixColumns (mixColumns s)) (4 * c + r) =
      mixByteTwice (byteOf s (4 * c + r)) (byteOf s (4 * c + (r + 2) % 4)) := by
  rw [byteOf_mixColumns_eq_mixByte _ hr hc, columnSum_mixColumns s hc, byteOf_mixColumns_eq_mixByte s hr hc,
    byteOf_mixColumns_eq_mixByte s (Nat.mod_lt _ (by decide)) hc, Nat.mod_add_mod, mixByte_mixByte]

/-- Mixing a column four times does nothing: the fourth power of the polynomial of R93 is 1 modulo
`x^4 + 1`. -/
theorem mixColumns_bijective : Function.Bijective mixColumns := by
  refine bijective_of_involutive_twice fun s => word_ext_columns fun c hc r hr => ?_
  have hback : ((r + 2) % 4 + 2) % 4 = r := by omega
  simp only [Function.comp_apply]
  rw [byteOf_mixColumns_mixColumns _ hr hc, byteOf_mixColumns_mixColumns _ hr hc,
    byteOf_mixColumns_mixColumns _ (Nat.mod_lt _ (by decide)) hc, hback, mixByteTwice_mixByteTwice]

theorem round_bijective (k : Word) : Function.Bijective (round · k) :=
  (addRoundKey_bijective k).comp (mixColumns_bijective.comp (shiftRows_bijective.comp subBytes_bijective))

theorem finalRound_bijective (k : Word) : Function.Bijective (finalRound · k) :=
  (addRoundKey_bijective k).comp (shiftRows_bijective.comp subBytes_bijective)

theorem rounds_bijective (rk : Nat → Word) (r m : Nat) : Function.Bijective (rounds rk r m) := by
  induction m generalizing r with
  | zero => exact Function.bijective_id
  | succ m ih => exact (ih (r + 1)).comp (round_bijective (rk r))

/-- Settles O17: the cipher is a composition of bijections, one per step of a round. -/
theorem cipherIsBijection : Obligations.CipherIsBijection := fun nr rk =>
  (finalRound_bijective (rk nr)).comp
    ((rounds_bijective rk 1 (nr - 1)).comp (addRoundKey_bijective (rk 0)))

end Sys2Proof.Machine
end

section
/-! PROOFS. The statements on the key schedule of 41_key_schedule.md: the round constants (R105), the fold and
the assist values (R107 to R110), the two EXP commands (R114, R117), and the recurrence on lanes (R112). -/

namespace Sys2Proof.Machine

/-! ### Round constants (R105) -/

/-- Settles O19: the ten constants and the nine steps between them are computed. -/
theorem roundConstants : Obligations.RoundConstants := by
  unfold Obligations.RoundConstants
  decide

/-! ### The fold by lanes (R107, R108) -/

theorem laneOf_xor (V W : Word) (j : Nat) : laneOf (V ^^^ W) j = laneOf V j ^^^ laneOf W j :=
  BitVec.extractLsb'_xor ..

/-- A shift by one lane empties lane 0. -/
theorem laneOf_shiftLeft_zero (W : Word) : laneOf (W <<< 32) 0 = 0 := by
  apply BitVec.eq_of_getLsbD_eq
  intro i hi
  simp [laneOf, hi]

/-- A shift by one lane moves each lane to the next. -/
theorem laneOf_shiftLeft_succ (W : Word) {j : Nat} (hj : j < 3) :
    laneOf (W <<< 32) (j + 1) = laneOf W j := by
  apply BitVec.eq_of_getLsbD_eq
  intro i hi
  have hbit : 32 * (j + 1) + i < 128 := by omega
  have hlane : ¬ 32 * (j + 1) + i < 32 := by omega
  have hsub : 32 * (j + 1) + i - 32 = 32 * j + i := by omega
  simp [laneOf, hi, hbit, hlane, hsub, -BitVec.getLsbD_eq_getElem]

/-- In `k + (k << n)` done twice the middle terms cancel: `(1 + z)^2 = 1 + z^2`. -/
theorem xor_shiftLeft_twice (k : Word) (n : Nat) :
    k ^^^ k <<< n ^^^ (k ^^^ k <<< n) <<< n = k ^^^ k <<< (n + n) := by
  rw [BitVec.shiftLeft_xor_distrib, ← BitVec.shiftLeft_add]
  grind

/-- A fourth step after the three of the fold gives the word back: `(1 + z)^4 = 1 + z^4`, and four shifts
by a lane leave nothing. -/
theorem fold_xor_shiftLeft (k : Word) : fold k ^^^ fold k <<< 32 = k := by
  have hout : k <<< 128 = 0#128 := BitVec.shiftLeft_eq_zero (Nat.le_refl _)
  simp only [fold, xor_shiftLeft_twice, Nat.reduceAdd, hout, BitVec.xor_zero]

/-- Lane 0 passes through the fold. -/
theorem laneOf_fold_zero (k : Word) : laneOf (fold k) 0 = laneOf k 0 := by
  have h := congrArg (laneOf · 0) (fold_xor_shiftLeft k)
  simpa [laneOf_xor, laneOf_shiftLeft_zero] using h

/-- Each further lane of a fold is its own lane and the folded lane before it. -/
theorem laneOf_fold_succ (k : Word) {j : Nat} (hj : j < 3) :
    laneOf (fold k) (j + 1) = laneOf (fold k) j ^^^ laneOf k (j + 1) := by
  have h := congrArg (laneOf · (j + 1)) (fold_xor_shiftLeft k)
  simp only [laneOf_xor, laneOf_shiftLeft_succ _ hj] at h
  grind

/-- Settles O18: the lanes of a fold one after another. -/
theorem foldIsPrefixXor : Obligations.FoldIsPrefixXor := by
  refine ⟨fun k => ?_, by decide⟩
  have h0 := laneOf_fold_zero k
  have h1 : laneOf (fold k) 1 = _ := laneOf_fold_succ k (j := 0) (by decide)
  have h2 : laneOf (fold k) 2 = _ := laneOf_fold_succ k (j := 1) (by decide)
  have h3 : laneOf (fold k) 3 = _ := laneOf_fold_succ k (j := 2) (by decide)
  rw [h3, h2, h1, h0]
  exact ⟨rfl, rfl, rfl, rfl⟩

/-! ### Substitution and rotation of a lane by bytes (R11, R90) -/

theorem laneByte_xor (u v : Lane) (b : Nat) : laneByte (u ^^^ v) b = laneByte u b ^^^ laneByte v b :=
  BitVec.extractLsb'_xor ..

/-- Two lanes with the same bytes are equal. -/
theorem lane_ext_bytes {u v : Lane} (h : ∀ b < 4, laneByte u b = laneByte v b) : u = v := by
  apply BitVec.eq_of_getLsbD_eq
  intro i hi
  have hbit := congrArg (BitVec.getLsbD · (i % 8)) (h (i / 8) (by omega))
  have hlt : i % 8 < 8 := Nat.mod_lt _ (by decide)
  simpa [laneByte, hlt, Nat.div_add_mod] using hbit

/-- A byte as a lane has that byte first. -/
theorem laneByte_setWidth_zero (rc : Byte) : laneByte (rc.setWidth 32) 0 = rc := by
  apply BitVec.eq_of_getLsbD_eq
  intro i hi
  have h32 : i < 32 := by omega
  simp [laneByte, hi, h32]

/-- A byte as a lane has nothing behind it. -/
theorem laneByte_setWidth_succ (rc : Byte) (b : Nat) : laneByte (rc.setWidth 32) (b + 1) = 0 := by
  apply BitVec.eq_of_getLsbD_eq
  intro i hi
  have hout : rc.getLsbD (8 * (b + 1) + i) = false := BitVec.getLsbD_of_ge _ _ (by omega)
  simp [laneByte, hout]

/-- Substitution maps each byte in place (R90). -/
theorem laneByte_subWord (v : Lane) {b : Nat} (hb : b < 4) :
    laneByte (subWord v) b = sbox (laneByte v b) :=
  (laneByte_laneOfBytes (fun b => sbox (laneByte v b)) 0 b hb).trans (by rw [Nat.zero_add])

/-- The rotation moves each byte to the place before it, and byte 0 to byte 3 (R109). -/
theorem laneByte_ror32 (v : Lane) {b : Nat} (hb : b < 4) :
    laneByte (ror32 v 8) b = laneByte v ((b + 1) % 4) := by
  apply BitVec.eq_of_getLsbD_eq
  intro i hi
  obtain hlow | rfl : b < 3 ∨ b = 3 := by omega
  · have hnext : (b + 1) % 4 = b + 1 := by omega
    have hplace : 8 + (8 * b + i) = 8 * (b + 1) + i := by omega
    have hlt : 8 * b + i < 24 := by omega
    simp [laneByte, ror32, hi, hnext, hplace, hlt]
  · have hout : v.getLsbD (8 + (24 + i)) = false := BitVec.getLsbD_of_ge _ _ (by omega)
    have hlt : 24 + i < 32 := by omega
    simp [laneByte, ror32, hi, hout, hlt, -BitVec.getLsbD_eq_getElem]

/-- Substitution and rotation commute (R109). -/
theorem ror32_subWord (v : Lane) : ror32 (subWord v) 8 = subWord (ror32 v 8) :=
  lane_ext_bytes fun b hb => by
    rw [laneByte_ror32 _ hb, laneByte_subWord _ (Nat.mod_lt _ (by decide)), laneByte_subWord _ hb,
      laneByte_ror32 _ hb]

/-! ### The assist values (R106, R109, R110) -/

theorem laneOf_broadcast (v : Lane) {j : Nat} (hj : j < 4) : laneOf (broadcast v) j = v := by
  rw [broadcast, laneOf_wordOfLanes _ _ _ _ j hj]
  interval_cases j <;> rfl

theorem laneOf_assistRc (a : Word) (rc : Byte) {j : Nat} (hj : j < 4) :
    laneOf (assistRc a rc) j = ror32 (subWord (laneOf a 3)) 8 ^^^ rc.setWidth 32 :=
  laneOf_broadcast _ hj

theorem laneOf_assistNoRc (a : Word) {j : Nat} (hj : j < 4) :
    laneOf (assistNoRc a) j = subWord (laneOf a 3) :=
  laneOf_broadcast _ hj

/-- The rotated substituted lane by the bytes of the lane. -/
theorem laneByte_ror32_subWord (v : Lane) {b : Nat} (hb : b < 4) :
    laneByte (ror32 (subWord v) 8) b = sbox (laneByte v ((b + 1) % 4)) := by
  rw [laneByte_ror32 _ hb, laneByte_subWord _ (Nat.mod_lt _ (by decide))]

/-- Byte `b` of the high lane is byte `12 + b` of the word. -/
theorem laneByte_high (a : Word) {b : Nat} (hb : b < 4) : laneByte (laneOf a 3) b = byteOf a (12 + b) := by
  have hdiv : (12 + b) / 4 = 3 := by omega
  have hmod : (12 + b) % 4 = b := by omega
  rw [byteOf_eq_laneByte, hdiv, hmod]

/-- The bytes of an assist value with round constant (R109). -/
theorem laneByte_assistRc (a : Word) (rc : Byte) {j b : Nat} (hj : j < 4) (hb : b < 4) :
    laneByte (laneOf (assistRc a rc) j) b =
      sbox (byteOf a (12 + (b + 1) % 4)) ^^^ laneByte (rc.setWidth 32) b := by
  rw [laneOf_assistRc a rc hj, laneByte_xor, laneByte_ror32_subWord _ hb,
    laneByte_high a (Nat.mod_lt _ (by decide))]

/-- The round constant meets byte 0 of each lane. -/
theorem laneByte_assistRc_zero (a : Word) (rc : Byte) {j : Nat} (hj : j < 4) :
    laneByte (laneOf (assistRc a rc) j) 0 = sbox (byteOf a 13) ^^^ rc := by
  rw [laneByte_assistRc a rc hj (by decide), laneByte_setWidth_zero]

/-- The other bytes of each lane are substituted bytes alone. -/
theorem laneByte_assistRc_succ (a : Word) (rc : Byte) {j b : Nat} (hj : j < 4) (hb : b < 3) :
    laneByte (laneOf (assistRc a rc) j) (b + 1) = sbox (byteOf a (12 + (b + 2) % 4)) := by
  rw [laneByte_assistRc a rc hj (by omega), laneByte_setWidth_succ]
  exact BitVec.xor_zero

/-- Settles O20: an assist value is one lane in every place, and that lane is known by its bytes. -/
theorem assistValues : Obligations.AssistValues := by
  refine ⟨fun a rc j hj => ⟨laneOf_assistRc a rc hj, laneByte_assistRc_zero a rc hj, ?_, ?_, ?_⟩,
    fun a j hj => ⟨laneOf_assistNoRc a hj, fun b hb => ?_⟩, ror32_subWord, fun a ha => ?_, by decide,
    by decide, fun a ha => ?_⟩
  · exact laneByte_assistRc_succ a rc (b := 0) hj (by decide)
  · exact laneByte_assistRc_succ a rc (b := 1) hj (by decide)
  · exact laneByte_assistRc_succ a rc (b := 2) hj (by decide)
  · rw [laneOf_assistNoRc a hj, laneByte_subWord _ hb, laneByte_high a hb]
  · rw [assistRc, ha]
    decide
  · rw [assistNoRc, ha]
    decide

/-! ### The two EXP commands (R24, R114, R117) -/

/-- Entries 11 to 14 are kept by EXP128 (R24). -/
theorem expand128_getD_kept (kw0 : Word) (rk : Vector Word 15) {i : Nat} (hi : 11 ≤ i) :
    (expand128 kw0 rk).getD i 0 = rk.getD i 0 := by
  rw [expand128, foldl_rkSet_other (fun rk i => nextKey128 (rk.getD (i - 1) 0) i) _ (by omega) (.inr hi),
    rkSet_getD _ _ _ _ (by omega), if_neg (by omega)]

/-- The context EXP128 leaves is the key and the round keys built from it (R114). -/
theorem rkAt_of_exec_exp128 {kw0 : Word} {s t : State} (h : exec (.exp128 kw0) s = .next t) :
    t.rkAt 0 = kw0 ∧ built128 t.rkAt := by
  rw [exec_exp128_iff] at h
  subst h
  exact ⟨expand128_getD_zero kw0 s.rk, built128_expand128 kw0 s.rk⟩

/-- The context EXP256 leaves is the key and the round keys built from it (R117). -/
theorem rkAt_of_exec_exp256 {kw0 kw1 : Word} {s t : State} (h : exec (.exp256 kw0 kw1) s = .next t) :
    (t.rkAt 0 = kw0 ∧ t.rkAt 1 = kw1) ∧ built256 t.rkAt := by
  rw [exec_exp256_iff] at h
  subst h
  exact ⟨expand256_getD_key kw0 kw1 s.rk, built256_expand256 kw0 kw1 s.rk⟩

/-- Settles O21: the context is built from the key, and the rest of the state is in its next state. -/
theorem exp128Result : Obligations.Exp128Result := by
  intro kw0 s
  have hexec := (exec_exp128_iff kw0 s _).2 rfl
  obtain ⟨hkey, hbuilt⟩ := rkAt_of_exec_exp128 hexec
  exact ⟨_, hexec, hkey, fun i h1 h10 => hbuilt i (List.mem_range'_1.2 ⟨h1, by omega⟩),
    fun i h11 _ => expand128_getD_kept kw0 s.rk h11,
    rfl, rfl, rfl, fun _ => rfl, rfl, rfl, rfl, rfl, rfl⟩

/-- Settles O22: the context is built from the key by the parity of the index, and the rest of the state is
in its next state. -/
theorem exp256Result : Obligations.Exp256Result := by
  intro kw0 kw1 s
  have hexec := (exec_exp256_iff kw0 kw1 s _).2 rfl
  obtain ⟨⟨hkey0, hkey1⟩, hbuilt⟩ := rkAt_of_exec_exp256 hexec
  have hnext (i : Nat) (h2 : 2 ≤ i) (h14 : i ≤ 14) := hbuilt i (List.mem_range'_1.2 ⟨h2, by omega⟩)
  exact ⟨_, hexec, hkey0, hkey1, fun i h2 h14 heven => (hnext i h2 h14).trans (if_pos heven),
    fun i h2 h14 hodd => (hnext i h2 h14).trans (if_neg (by omega)),
    rfl, rfl, rfl, fun _ => rfl, rfl, rfl, rfl, rfl, rfl⟩

/-! ### The recurrence on lanes (R112) -/

/-- The lanes of a sequence of round keys, `w[4i + j] = RK[i].Lj` (R112). -/
def scheduleLane (rk : Nat → Word) (i : Nat) : Lane := laneOf (rk (i / 4)) (i % 4)

/-- What lane `i` adds to lane `i - 4`, from lane `i - 1`, for a 128-bit key (R112). -/
def laneTerm128 (i : Nat) (prev : Lane) : Lane :=
  if i % 4 = 0 then ror32 (subWord prev) 8 ^^^ (rcon (i / 4)).setWidth 32 else prev

/-- What lane `i` adds to lane `i - 8`, from lane `i - 1`, for a 256-bit key (R112). -/
def laneTerm256 (i : Nat) (prev : Lane) : Lane :=
  if i % 8 = 0 then ror32 (subWord prev) 8 ^^^ (rcon (i / 8)).setWidth 32
  else if i % 8 = 4 then subWord prev else prev

/-- Lanes `nk` to `n - 1` follow the recurrence with the given terms. -/
abbrev followsRecurrence (nk n : Nat) (term : Nat → Lane → Lane) (w : Nat → Lane) : Prop :=
  ∀ i, nk ≤ i → i < n → w i = w (i - nk) ^^^ term i (w (i - 1))

/-- The recurrence and the first `nk` lanes determine the others. -/
theorem followsRecurrence_iff_eq {nk n : Nat} {term : Nat → Lane → Lane} {v w : Nat → Lane} (hnk : 0 < nk)
    (hv : followsRecurrence nk n term v) (hkey : ∀ i < nk, w i = v i) :
    followsRecurrence nk n term w ↔ ∀ i < n, w i = v i := by
  constructor
  · intro hw i
    induction i using Nat.strong_induction_on with
    | _ i ih =>
      intro hi
      by_cases hlow : i < nk
      · exact hkey i hlow
      · rw [hw i (by omega) hi, ih (i - nk) (by omega) (by omega), ih (i - 1) (by omega) (by omega),
          ← hv i (by omega) hi]
  · intro heq i hlow hi
    rw [heq i hi, heq (i - nk) (by omega), heq (i - 1) (by omega), hv i hlow hi]

/-- Lane 0 of a key step takes the assist lane. -/
theorem laneOf_keyStep_zero (f : Word) (u : Lane) :
    laneOf (keyStep f (broadcast u)) 0 = laneOf f 0 ^^^ u := by
  rw [keyStep, laneOf_xor, laneOf_fold_zero, laneOf_broadcast u (by decide)]

/-- Each further lane of a key step takes the lane before it. -/
theorem laneOf_keyStep_succ (f : Word) (u : Lane) {j : Nat} (hj : j < 3) :
    laneOf (keyStep f (broadcast u)) (j + 1) =
      laneOf f (j + 1) ^^^ laneOf (keyStep f (broadcast u)) j := by
  simp only [keyStep, laneOf_xor, laneOf_fold_succ f hj, laneOf_broadcast u (show j < 4 by omega),
    laneOf_broadcast u (show j + 1 < 4 by omega)]
  ac_rfl

/-- The lanes of the first round key. -/
theorem scheduleLane_first (rk : Nat → Word) {j : Nat} (hj : j < 4) :
    scheduleLane rk j = laneOf (rk 0) j := by
  rw [scheduleLane, Nat.div_eq_of_lt hj, Nat.mod_eq_of_lt hj]

/-- The lanes of the second round key. -/
theorem scheduleLane_second (rk : Nat → Word) {j : Nat} (hj : j < 4) :
    scheduleLane rk (j + 4) = laneOf (rk 1) j := by
  rw [scheduleLane, Nat.add_div_right _ (by decide), Nat.add_mod_right, Nat.div_eq_of_lt hj,
    Nat.mod_eq_of_lt hj]

/-- Round keys made by key steps on the round key `d` places back follow the recurrence: lane 0 takes the
assist lane, which is the term from the high lane of the round key before, and each other lane takes the
lane before it. -/
theorem followsRecurrence_of_keySteps {d m : Nat} {term : Nat → Lane → Lane} {rk : Nat → Word} (hd : 0 < d)
    (hstep : ∀ k, d ≤ k → k < m →
      rk k = keyStep (rk (k - d)) (broadcast (term (4 * k) (laneOf (rk (k - 1)) 3))))
    (hplain : ∀ i prev, i % 4 ≠ 0 → term i prev = prev) :
    followsRecurrence (4 * d) (4 * m) term (scheduleLane rk) := by
  intro i hlow hi
  have hkey := hstep (i / 4) (by omega) (by omega)
  have hdiv : (i - 4 * d) / 4 = i / 4 - d := by omega
  have hmod : (i - 4 * d) % 4 = i % 4 := by omega
  simp only [scheduleLane, hdiv, hmod]
  by_cases h0 : i % 4 = 0
  · have hfirst : 4 * (i / 4) = i := by omega
    have hdiv1 : (i - 1) / 4 = i / 4 - 1 := by omega
    have hmod1 : (i - 1) % 4 = 3 := by omega
    rw [h0, hdiv1, hmod1, hkey, laneOf_keyStep_zero, hfirst]
  · have hdiv1 : (i - 1) / 4 = i / 4 := by omega
    have hmod1 : i % 4 = (i - 1) % 4 + 1 := by omega
    rw [hplain i _ h0, hdiv1, hmod1, hkey, laneOf_keyStep_succ _ _ (by omega)]

/-- The round keys of EXP128 follow the recurrence for a 128-bit key. -/
theorem followsRecurrence_of_built128 {rk : Nat → Word} (h : built128 rk) :
    followsRecurrence 4 44 laneTerm128 (scheduleLane rk) := by
  refine followsRecurrence_of_keySteps (d := 1) (m := 11) (by decide) (fun k h1 h11 => ?_)
    fun i prev h0 => if_neg h0
  have hterm (prev : Lane) : laneTerm128 (4 * k) prev = ror32 (subWord prev) 8 ^^^ (rcon k).setWidth 32 := by
    rw [laneTerm128, if_pos (by omega), Nat.mul_div_cancel_left k (by decide)]
  rw [h k (List.mem_range'_1.2 (by omega)), hterm]
  rfl

/-- The round keys of EXP256 follow the recurrence for a 256-bit key. -/
theorem followsRecurrence_of_built256 {rk : Nat → Word} (h : built256 rk) :
    followsRecurrence 8 60 laneTerm256 (scheduleLane rk) := by
  refine followsRecurrence_of_keySteps (d := 2) (m := 15) (by decide) (fun k h2 h15 => ?_)
    fun i prev h0 => ?_
  · rw [h k (List.mem_range'_1.2 (by omega)), nextKey256]
    have hdiv : 4 * k / 8 = k / 2 := by omega
    by_cases heven : k % 2 = 0
    · rw [if_pos heven, laneTerm256, if_pos (by omega), hdiv]
      rfl
    · rw [if_neg heven, laneTerm256, if_neg (by omega), if_pos (by omega)]
      rfl
  · rw [laneTerm256, if_neg (by omega), if_neg (by omega)]

/-- Settles O23: the round keys follow the recurrence, and the key lanes with the recurrence determine the
sequence. -/
theorem scheduleIsLaneRecurrence : Obligations.ScheduleIsLaneRecurrence := by
  constructor
  · intro kw0 s t w hexec hw
    obtain ⟨hkey, hbuilt⟩ := rkAt_of_exec_exp128 hexec
    refine followsRecurrence_iff_eq (term := laneTerm128) (v := scheduleLane t.rkAt) (by decide)
      (followsRecurrence_of_built128 hbuilt) fun i hi => ?_
    rw [hw i hi, scheduleLane_first _ hi, hkey]
  · intro kw0 kw1 s t w hexec hw
    obtain ⟨⟨hkey0, hkey1⟩, hbuilt⟩ := rkAt_of_exec_exp256 hexec
    refine followsRecurrence_iff_eq (term := laneTerm256) (v := scheduleLane t.rkAt) (by decide)
      (followsRecurrence_of_built256 hbuilt) fun i hi => ?_
    obtain hlow | hhigh := Nat.lt_or_ge i 4
    · rw [(hw i hlow).1, scheduleLane_first _ hlow, hkey0]
    · obtain ⟨j, rfl⟩ := Nat.exists_eq_add_of_le' hhigh
      have hj : j < 4 := by omega
      rw [(hw j hj).2, scheduleLane_second _ hj, hkey1]

end Sys2Proof.Machine
end

section
/-! PROOFS. The statements on the block kernel of 42_block_kernel.md: the issue order of the round unit (R133),
the interleaved loop lane by lane (R132), and what a block command that passes its checks leaves in memory
and state (R128, R131, R135, R136). -/

namespace Sys2Proof.Machine

/-! ### The issue order (R133) -/

/-- The operations of the round after `nr` enter after those of the rounds before. -/
theorem issueOrder_succ (nr : Nat) :
    issueOrder (nr + 1) = issueOrder nr ++ (List.range 4).map fun j => (nr + 1, j) := by
  rw [issueOrder, List.range'_1_concat, List.flatMap_append, List.flatMap_singleton, Nat.add_comm 1 nr]
  rfl

/-- Slot `k` of the issue order holds lane `k mod 4` of the round that `k div 4` rounds precede. -/
theorem issueOrder_eq_map_range (nr : Nat) :
    issueOrder nr = (List.range (4 * nr)).map fun k => (k / 4 + 1, k % 4) := by
  induction nr with
  | zero => rfl
  | succ nr ih =>
    rw [issueOrder_succ, ih, Nat.mul_succ, List.range_add, List.map_append, List.map_map]
    refine congrArg _ (List.map_congr_left fun j hj => ?_)
    rw [List.mem_range] at hj
    simp only [Function.comp_apply, Prod.mk.injEq]
    omega

theorem issueOrder_getElem?_eq_some_iff {nr k r j : Nat} :
    (issueOrder nr)[k]? = some (r, j) ↔ k < 4 * nr ∧ k / 4 + 1 = r ∧ k % 4 = j := by
  simp [issueOrder_eq_map_range, List.getElem?_eq_some_iff]

/-- Settles O28: slot `k` holds lane `k mod 4` of round `k div 4 + 1`. -/
theorem issueOrderSlots : Obligations.IssueOrderSlots := by
  intro nr
  simp only [issueOrder_getElem?_eq_some_iff]
  refine ⟨by simp [issueOrder_eq_map_range], fun r j h1 hr hj => ?_, fun k r j hslot => ?_⟩ <;> omega

/-! ### The interleaved loop on the lane registers (R131, R132) -/

/-- The four operations of one round pass each lane register through the round unit once. -/
theorem foldl_issue_round (nr : Nat) (rk : Nat → Word) (r : Nat) (st : Vector Word 4) :
    ((List.range Config.nway).map fun j => (r, j)).foldl (issue nr rk) st = st.map (roundUnit nr rk r) := by
  ext j hj
  obtain rfl | rfl | rfl | rfl : j = 0 ∨ j = 1 ∨ j = 2 ∨ j = 3 := by omega
  all_goals simp [Config.nway, List.range_succ, issue, Vector.getD]

/-- Passing all lanes through the same sequence of functions passes each lane through it alone. -/
theorem getElem_foldl_map (f : Nat → Word → Word) (rs : List Nat) (st : Vector Word 4) {j : Nat}
    (hj : j < 4) :
    (rs.foldl (fun st r => st.map (f r)) st)[j] = rs.foldl (fun t r => f r t) st[j] := by
  induction rs generalizing st with
  | nil => rfl
  | cons r rs ih => rw [List.foldl_cons, List.foldl_cons, ih, Vector.getElem_map]

/-- Before the last round the round unit computes the middle rounds (R125). -/
theorem foldl_roundUnit_eq_rounds {nr r m : Nat} (rk : Nat → Word) (h : r + m ≤ nr) (t : Word) :
    (List.range' r m).foldl (fun t r => roundUnit nr rk r t) t = rounds rk r m t := by
  induction m generalizing r t with
  | zero => rfl
  | succ m ih =>
    rw [List.range'_succ, List.foldl_cons, roundUnit, if_neg (by omega), ih (by omega), rounds]

/-- All passes of one block through the round unit are the cipher after the whitening (R98, R125). -/
theorem foldl_roundUnit_eq_cipher {nr : Nat} (rk : Nat → Word) (h : 1 ≤ nr) (s : Word) :
    (List.range' 1 nr).foldl (fun t r => roundUnit nr rk r t) (addRoundKey s (rk 0)) = cipher nr rk s := by
  obtain ⟨m, rfl⟩ : ∃ m, nr = m + 1 := ⟨nr - 1, by omega⟩
  rw [List.range'_1_concat, List.foldl_append, foldl_roundUnit_eq_rounds rk (by omega), List.foldl_cons,
    List.foldl_nil, roundUnit, if_pos (Nat.add_comm 1 m), Nat.add_comm 1 m, cipher, Nat.add_sub_cancel]

/-- Settles O27: a round of the loop acts on each lane alone, and so does the sequence of all rounds. -/
theorem interleavedLanesAreIndependent : Obligations.InterleavedLanesAreIndependent := by
  intro nr rk st hnr j hj
  rw [encryptLanes, issueOrder, List.foldl_flatMap]
  simp only [foldl_issue_round]
  rw [getElem_foldl_map (roundUnit nr rk), Vector.getElem_map, foldl_roundUnit_eq_cipher rk hnr]

/-! ### Encrypting a buffer (R42, R128, R131, R145) -/

/-- The memory `m'` is `m` with each of the `n` blocks from `addr` replaced by its cipher, and no other
byte changed. -/
structure EncryptsBuffer (nr : Nat) (rk : Nat → Word) (addr n : Nat) (m m' : Memory) : Prop where
  blocks : ∀ i < n, readBlock m' (blockAddr addr i) = cipher nr rk (readBlock m (blockAddr addr i))
  others : ∀ a, a < addr ∨ bufferEnd addr n ≤ a → readByte m' a = readByte m a

theorem blockAddr_eq (addr i : Nat) : blockAddr addr i = addr + 16 * i := rfl

theorem bufferEnd_eq (addr n : Nat) : bufferEnd addr n = addr + 16 * n := rfl

/-- Reading a block of a buffer after a write to one of its blocks. -/
@[simp] theorem readBlock_writeBlock_blockAddr (m : Memory) (addr i j : Nat) (W : Word) :
    readBlock (writeBlock m (blockAddr addr i) W) (blockAddr addr j) =
      if j = i then W else readBlock m (blockAddr addr j) := by
  split
  · next h => rw [h, readBlock_writeBlock_same]
  · next h => exact readBlock_writeBlock_disjoint m W (by simp only [blockAddr_eq]; omega)

/-- A write to a block of a buffer leaves the bytes outside the buffer. -/
theorem readByte_writeBlock_of_outside {addr n i a : Nat} (m : Memory) (W : Word) (hi : i < n)
    (ha : a < addr ∨ bufferEnd addr n ≤ a) :
    readByte (writeBlock m (blockAddr addr i) W) a = readByte m a := by
  rw [bufferEnd_eq] at ha
  rw [readByte_writeBlock, if_neg (by rw [blockAddr_eq]; omega)]

section
variable {nr : Nat} {rk : Nat → Word}

/-- Nothing changes when no block is encrypted. -/
theorem EncryptsBuffer.zero (addr : Nat) (m : Memory) : EncryptsBuffer nr rk addr 0 m m :=
  ⟨nofun, fun _ _ => rfl⟩

/-- A block that does not meet the buffer stays. -/
theorem EncryptsBuffer.readBlock_other {addr n a : Nat} {m m' : Memory}
    (h : EncryptsBuffer nr rk addr n m m') (ha : a + 16 ≤ addr ∨ bufferEnd addr n ≤ a) :
    readBlock m' a = readBlock m a :=
  readBlock_congr fun x _ _ => h.others x (by omega)

/-- Encrypting a buffer and then the buffer that follows it encrypts the two as one. -/
theorem EncryptsBuffer.append {addr n k : Nat} {m m' m'' : Memory}
    (h : EncryptsBuffer nr rk addr n m m') (h' : EncryptsBuffer nr rk (blockAddr addr n) k m' m'') :
    EncryptsBuffer nr rk addr (n + k) m m'' where
  blocks i hi := by
    by_cases hin : i < n
    · have hkept := h'.readBlock_other (a := blockAddr addr i) (.inl (by simp only [blockAddr_eq]; omega))
      rw [hkept, h.blocks i hin]
    · obtain ⟨j, rfl⟩ : ∃ j, i = n + j := ⟨i - n, by omega⟩
      have hkept := h.readBlock_other (a := blockAddr addr (n + j))
        (.inr (by simp only [blockAddr_eq, bufferEnd_eq]; omega))
      rw [← hkept, ← blockAddr_blockAddr]
      exact h'.blocks j (by omega)
  others a ha := by
    simp only [bufferEnd_eq] at ha
    rw [h'.others a (by simp only [bufferEnd_eq, blockAddr_eq]; omega),
      h.others a (by rw [bufferEnd_eq]; omega)]

/-- Port operations that encrypt `c` blocks each, one behind the other, encrypt all of them. -/
theorem encryptsBuffer_foldl {addr c : Nat} {f : Port → Nat → Port}
    (hf : ∀ p j, EncryptsBuffer nr rk (blockAddr addr (c * j)) c p.mem (f p j).mem) (q : Nat) (p : Port) :
    EncryptsBuffer nr rk addr (c * q) p.mem ((List.range q).foldl f p).mem := by
  induction q with
  | zero => exact .zero addr p.mem
  | succ q ih =>
    rw [List.range_succ, List.foldl_append, Nat.mul_succ]
    exact ih.append (hf _ q)

/-- The single-block path encrypts its block (R128). -/
theorem encryptsBuffer_kernel1 (addr : Nat) (p : Port) :
    EncryptsBuffer nr rk addr 1 p.mem (kernel1 addr nr rk p).mem where
  blocks i hi := by
    obtain rfl : i = 0 := by omega
    exact readBlock_writeBlock_same p.mem addr _
  others a ha := readByte_writeBlock_of_outside (i := 0) p.mem _ (by decide) ha

/-- The tail encrypts the blocks behind the full groups (R145). -/
theorem encryptsBuffer_runTail (addr q m : Nat) (p : Port) :
    EncryptsBuffer nr rk (blockAddr addr (4 * q)) m p.mem (runTail addr q m nr rk p).mem := by
  suffices h : EncryptsBuffer nr rk (blockAddr addr (4 * q)) (1 * m) p.mem (runTail addr q m nr rk p).mem by
    rwa [Nat.one_mul] at h
  refine encryptsBuffer_foldl (fun p t => ?_) m p
  have haddr : blockAddr (blockAddr addr (4 * q)) (1 * t) = addr + 64 * q + 16 * t := by
    simp only [blockAddr_eq]
    omega
  rw [haddr]
  exact encryptsBuffer_kernel1 _ p

variable (hnr : 1 ≤ nr)
include hnr

/-- After the last round each lane register holds the cipher of its block (R132). -/
theorem kernel4Lanes_getElem (addr : Nat) (m : Memory) {j : Nat} (hj : j < 4) :
    (kernel4Lanes addr nr rk m)[j] = cipher nr rk (readBlock m (blockAddr addr j)) := by
  rw [kernel4Lanes, interleavedLanesAreIndependent nr rk _ hnr j hj]
  obtain rfl | rfl | rfl | rfl : j = 0 ∨ j = 1 ∨ j = 2 ∨ j = 3 := by omega
  all_goals rfl

/-- The 4-way kernel encrypts its four blocks (R131). -/
theorem encryptsBuffer_kernel4 (addr : Nat) (p : Port) :
    EncryptsBuffer nr rk addr 4 p.mem (kernel4 addr nr rk p).mem where
  blocks j hj := by
    rw [kernel4_mem, ← kernel4Lanes_getElem hnr addr p.mem hj]
    obtain rfl | rfl | rfl | rfl : j = 0 ∨ j = 1 ∨ j = 2 ∨ j = 3 := by omega
    all_goals simp
  others a ha := by
    rw [kernel4_mem]
    iterate 4 rw [readByte_writeBlock_of_outside _ _ (by decide) ha]

/-- The full groups encrypt four blocks each (R145). -/
theorem encryptsBuffer_runGroups (addr q : Nat) (p : Port) :
    EncryptsBuffer nr rk addr (4 * q) p.mem (runGroups addr q nr rk p).mem := by
  refine encryptsBuffer_foldl (fun p g => ?_) q p
  have haddr : blockAddr addr (4 * g) = addr + 64 * g := by rw [blockAddr_eq]; omega
  rw [haddr]
  exact encryptsBuffer_kernel4 hnr _ p

/-- The sequencer encrypts every block of its buffer (R145, R150). -/
theorem encryptsBuffer_runBody (addr n : Nat) (p : Port) :
    EncryptsBuffer nr rk addr n p.mem (runBody addr n nr rk p).mem := by
  have h := (encryptsBuffer_runGroups hnr addr (n / 4) p).append
    (encryptsBuffer_runTail addr (n / 4) (n % 4) (runGroups addr (n / 4) nr rk p))
  rwa [Nat.div_add_mod] at h

end

/-! ### Block commands that pass their checks (R128, R131, R145, R184) -/

/-- A block command runs a body that encrypts its buffer. -/
theorem exec_of_blockOperands {i : Instr} {u : Bool} {addr n : Nat}
    (h : blockOperands i = some (u, addr, n)) (s : State) :
    ∃ body : BlockBody, exec i s = .next (blockCommand u addr n body s) ∧
      ∀ nr rk p, 1 ≤ nr → EncryptsBuffer nr rk addr n p.mem (body nr rk p).mem := by
  cases i with
  | exp128 kw0 => cases h
  | exp256 kw0 kw1 => cases h
  | enc1 u addr => cases h; exact ⟨kernel1 addr, rfl, fun _ _ p _ => encryptsBuffer_kernel1 addr p⟩
  | enc4 u addr => cases h; exact ⟨kernel4 addr, rfl, fun _ _ p hnr => encryptsBuffer_kernel4 hnr addr p⟩
  | run u addr n => cases h; exact ⟨runBody addr n, rfl, fun _ _ p hnr => encryptsBuffer_runBody hnr addr n p⟩
  | dbl x => cases h

/-- A legal round count is not 0. -/
theorem one_le_nr_of_hasContext {s : State} (h : hasContext s) : 1 ≤ s.nr.toNat := by
  rcases h with h | h <;> rw [h] <;> decide

/-- A block command that is admitted completes: it encrypts its buffer, answers status 0, and changes
nothing else. -/
theorem exec_of_isAdmitted {i : Instr} {u : Bool} {addr n : Nat} {s : State}
    (hi : blockOperands i = some (u, addr, n)) (hadm : isAdmitted s u addr n) :
    ∃ t, exec i s = .next t ∧ EncryptsBuffer s.nr.toNat s.rkAt addr n s.mem t.mem ∧
      t.resp = s.resp ++ [0] ∧ t.flt = s.flt ∧ sameContext s t ∧ sameSurroundings s t := by
  obtain ⟨body, hexec, hbody⟩ := exec_of_blockOperands hi s
  rw [blockCommand_of_none body ((blockCheck_eq_none_iff_isAdmitted s u addr n).2 hadm)] at hexec
  exact ⟨_, hexec, hbody _ _ ⟨s.mem, []⟩ (one_le_nr_of_hasContext hadm.1), rfl, rfl, ⟨rfl, rfl⟩,
    rfl, rfl, rfl, rfl, rfl⟩

/-- Settles O24: ENC1 is the block command on one block. -/
theorem enc1Result : Obligations.Enc1Result := by
  intro u addr s hadm
  obtain ⟨t, hexec, hmem, hrest⟩ := exec_of_isAdmitted (i := .enc1 u addr) rfl hadm
  exact ⟨t, hexec, hmem.blocks 0 (by decide), hmem.others, hrest⟩

/-- Settles O25: ENC4 is the block command on four blocks. -/
theorem enc4Result : Obligations.Enc4Result := by
  intro u addr s hadm
  obtain ⟨t, hexec, hmem, hrest⟩ := exec_of_isAdmitted (i := .enc4 u addr) rfl hadm
  exact ⟨t, hexec, hmem.blocks, hmem.others, hrest⟩

/-- The output block of an admitted block command is the cipher of the input block. -/
theorem readBlock_of_exec {i : Instr} {u : Bool} {addr n j : Nat} {s t : State}
    (hi : blockOperands i = some (u, addr, n)) (hadm : isAdmitted s u addr n) (hj : j < n)
    (hexec : exec i s = .next t) :
    readBlock t.mem (addr + 16 * j) = cipher s.nr.toNat s.rkAt (readBlock s.mem (addr + 16 * j)) := by
  obtain ⟨t', hexec', hmem, -⟩ := exec_of_isAdmitted hi hadm
  obtain rfl : t' = t := (next_eq_next_iff t t').1 (hexec.symm.trans hexec')
  exact hmem.blocks j hj

/-- Settles O32: both output blocks are the cipher of the input block, which reads the round count and
the round keys up to it only. -/
theorem pathEquivalence : Obligations.PathEquivalence := by
  intro i i' u u' addr addr' n n' j j' s s' t t' hi hi' hadm hadm' hj hj' hnr hrk hin hexec hexec'
  rw [readBlock_of_exec hi hadm hj hexec, readBlock_of_exec hi' hadm' hj' hexec', ← hnr, ← hin,
    cipher_congr hrk]

end Sys2Proof.Machine
end

section
/-! PROOFS. The statements on RUN of 43_tail_safe_run.md: what it does for every count (R145, R146), its count
bound (R151), that it equals its single-block commands and, on four blocks, ENC4 (R150), and the known
answers of AES through EXP and a block command (95_test_vectors.md, S5). -/

namespace Sys2Proof.Machine

/-! ### RUN for every count (R145, R146, R151) -/

/-- Settles O26: RUN is the block command on `n` blocks. -/
theorem runResult : Obligations.RunResult := by
  intro u addr n s hadm
  obtain ⟨t, hexec, hmem, hrest⟩ := exec_of_isAdmitted (i := .run u addr n) rfl hadm
  exact ⟨t, hexec, hmem.blocks, hmem.others, hrest⟩

/-- Without a context a block command fails its first check (R184). -/
theorem blockCheck_of_not_hasContext {s : State} (h : ¬ hasContext s) (u : Bool) (addr n : Nat) :
    blockCheck s u addr n = some .noContext := by
  have hctx : validContext s.nr = false := by rwa [← Bool.not_eq_true, validContext_iff]
  rw [blockCheck, hctx]
  rfl

/-- On no blocks the context is the only check (R146). -/
theorem blockCheck_zero_of_hasContext {s : State} (h : hasContext s) (u : Bool) (addr : Nat) :
    blockCheck s u addr 0 = none :=
  (blockCheck_eq_none_iff_isAdmitted s u addr 0).2 ⟨h, .inl rfl⟩

/-- Settles O29: with a context the sequencer runs on no blocks, without one the first check fails. -/
theorem runOfNoBlocks : Obligations.RunOfNoBlocks := by
  refine fun u addr s => ⟨?_, fun hctx => ?_, fun hctx hflt => ?_⟩
  · by_cases hctx : hasContext s
    · exact accessesInReferenceOrder _ u addr 0 s rfl ⟨hctx, .inl rfl⟩
    · exact blockAccesses_of_some _ (blockCheck_of_not_hasContext hctx u addr 0)
  · rw [exec_run_iff, blockCommand_of_none _ (blockCheck_zero_of_hasContext hctx u addr)]
    rfl
  · rw [exec_run_iff, blockCommand_of_some _ (blockCheck_of_not_hasContext hctx u addr 0),
      raiseFault_of_flt_eq_zero hflt]
    rfl

/-- A block command that leaves `FLT` 0 has passed its checks. -/
theorem isAdmitted_of_blockCommand_flt_eq_zero {u : Bool} {addr n : Nat} {body : BlockBody} {s : State}
    (h : (blockCommand u addr n body s).flt = 0) : isAdmitted s u addr n := by
  rcases blockCommand_cases u addr n body s with ⟨c, -, heq⟩ | ⟨hcheck, -⟩
  · exact absurd (heq ▸ h) (raiseFault_flt_ne_zero s c)
  · exact (blockCheck_eq_none_iff_isAdmitted s u addr n).1 hcheck

/-- Settles O34: an admitted buffer of at least one block ends inside the address space. -/
theorem runCountBound : Obligations.RunCountBound := by
  intro u addr n s t hpos _ hexec hflt
  rw [exec_run_iff] at hexec
  subst hexec
  obtain ⟨-, hadm⟩ := isAdmitted_of_blockCommand_flt_eq_zero hflt
  obtain ⟨-, hend, -⟩ := hadm.resolve_left (Nat.ne_of_gt hpos)
  omega

/-! ### RUN and the other block commands (R150) -/

/-- On four blocks the sequencer is the 4-way kernel on one window. -/
theorem runBody_four (addr : Nat) : runBody addr 4 = kernel4 addr := rfl

/-- On one block the sequencer is the single-block path. -/
theorem runBody_one (addr : Nat) : runBody addr 1 = kernel1 addr := rfl

/-- Settles O31: the checks are those of the same buffer, and the sequencer runs the same body. -/
theorem shortRuns : Obligations.ShortRuns := by
  refine fun u addr s => ⟨?_, ?_⟩
  · rw [(exec_run_iff u addr 4 s _).2 rfl, runBody_four, (exec_enc4_iff u addr s _).2 rfl]
  · rw [(exec_run_iff u addr 1 s _).2 rfl, runBody_one, (exec_enc1_iff u addr s _).2 rfl]

/-- A command is admitted in any state of the same round count and the same `Buf` (R184). -/
theorem isAdmitted_congr {s t : State} {u : Bool} {addr n : Nat} (hnr : t.nr = s.nr) (hbuf : t.buf = s.buf) :
    isAdmitted t u addr n ↔ isAdmitted s u addr n := by
  simp only [isAdmitted, hasContext, isInBounds, hnr, hbuf]

/-- A part of an admitted buffer is admitted. -/
theorem isAdmitted_part {s : State} {u : Bool} {addr i k n : Nat} (h : isAdmitted s u addr n)
    (hpart : i + k ≤ n) : isAdmitted s u (blockAddr addr i) k := by
  obtain ⟨hctx, hn | ⟨halign, hend, hbuf⟩⟩ := h
  · exact ⟨hctx, .inl (by omega)⟩
  · rw [blockAddr_eq]
    exact ⟨hctx, .inr ⟨halign.imp_right fun h => by omega, by omega,
      fun a h1 h2 => hbuf a (by omega) (by omega)⟩⟩

/-- Encrypting a buffer determines every byte of the memory after it. -/
theorem EncryptsBuffer.readByte_eq {nr : Nat} {rk : Nat → Word} {addr n : Nat} {m m' m'' : Memory}
    (h : EncryptsBuffer nr rk addr n m m') (h' : EncryptsBuffer nr rk addr n m m'') (a : Nat) :
    readByte m' a = readByte m'' a := by
  by_cases hout : a < addr ∨ bufferEnd addr n ≤ a
  · rw [h.others a hout, h'.others a hout]
  · rw [bufferEnd_eq] at hout
    obtain ⟨i, k, hi, hk, rfl⟩ : ∃ i k, i < n ∧ k < 16 ∧ a = blockAddr addr i + k :=
      ⟨(a - addr) / 16, (a - addr) % 16, by omega, by omega, by rw [blockAddr_eq]; omega⟩
    rw [← byteOf_readBlock _ _ _ hk, ← byteOf_readBlock _ _ _ hk, h.blocks i hi, h'.blocks i hi]

/-- The commands ENC1 on the blocks of a buffer, ascending (R150). -/
def singleBlocks (u : Bool) (addr n : Nat) : List Instr :=
  (List.range n).map fun i => .enc1 u (blockAddr addr i)

theorem singleBlocks_succ (u : Bool) (addr n : Nat) :
    singleBlocks u addr (n + 1) = singleBlocks u addr n ++ [.enc1 u (blockAddr addr n)] := by
  rw [singleBlocks, List.range_succ, List.map_append]
  rfl

/-- A run of one command on a core that is not faulted is its execution. -/
theorem runCommands_singleton_of_exec {i : Instr} {s t : State} (hflt : s.flt = 0)
    (hexec : exec i s = .next t) : runCommands [i] s = .next t :=
  runCommands_cons_next_iff.2 ⟨(faulted_eq_false s).2 hflt, t, hexec, rfl⟩

/-- The single-block commands of an admitted buffer all complete: they encrypt the buffer, answer status 0
each, and change nothing else. -/
theorem runCommands_singleBlocks {u : Bool} {addr n : Nat} {s : State} (hflt : s.flt = 0)
    (hadm : isAdmitted s u addr n) :
    ∃ t, runCommands (singleBlocks u addr n) s = .next t ∧
      EncryptsBuffer s.nr.toNat s.rkAt addr n s.mem t.mem ∧
      t.resp = s.resp ++ List.replicate n 0 ∧ t.flt = s.flt ∧ sameContext s t ∧ sameSurroundings s t := by
  induction n with
  | zero =>
    exact ⟨s, rfl, .zero addr s.mem, (List.append_nil s.resp).symm, rfl, ⟨rfl, rfl⟩,
      rfl, rfl, rfl, rfl, rfl⟩
  | succ n ih =>
    obtain ⟨v, hrun, hmem, hresp, hflt', ⟨hrk, hnr⟩, hframe, hcmd, hbuf, hhost, hdraws⟩ :=
      ih (isAdmitted_part (i := 0) hadm (by omega))
    obtain ⟨t, hexec, hmem1, hresp1, hflt1, ⟨hrk1, hnr1⟩, hframe1, hcmd1, hbuf1, hhost1, hdraws1⟩ :=
      exec_of_isAdmitted (i := .enc1 u (blockAddr addr n)) rfl
        ((isAdmitted_congr hnr hbuf).2 (isAdmitted_part hadm (Nat.le_refl _)))
    have hrkAt : v.rkAt = s.rkAt := by
      funext i
      rw [rkAt_eq, rkAt_eq, hrk]
    rw [hnr, hrkAt] at hmem1
    refine ⟨t, ?_, hmem.append hmem1, ?_, hflt1.trans hflt', ⟨hrk1.trans hrk, hnr1.trans hnr⟩,
      hframe1.trans hframe, hcmd1.trans hcmd, hbuf1.trans hbuf, hhost1.trans hhost, hdraws1.trans hdraws⟩
    · rw [singleBlocks_succ, runCommands_append_next_iff]
      exact ⟨v, hrun, runCommands_singleton_of_exec (hflt'.trans hflt) hexec⟩
    · rw [hresp1, hresp, List.append_assoc, List.replicate_succ']

/-- Settles O30: RUN and its single-block commands both encrypt the buffer and nothing else, and that
determines every byte. -/
theorem runEqualsSingleBlocks : Obligations.RunEqualsSingleBlocks := by
  intro u addr n s hflt hadm
  obtain ⟨t, hexec, hmem, -, hflt1, ⟨hrk1, hnr1⟩, hframe1, hcmd1, hbuf1, hhost1, hdraws1⟩ :=
    exec_of_isAdmitted (i := .run u addr n) rfl hadm
  obtain ⟨t', hrun, hmem', hresp, hflt2, ⟨hrk2, hnr2⟩, hframe2, hcmd2, hbuf2, hhost2, hdraws2⟩ :=
    runCommands_singleBlocks hflt hadm
  exact ⟨t, t', hexec, hrun, hmem.readByte_eq hmem', hflt1.trans hflt2.symm,
    ⟨hrk2.trans hrk1.symm, hnr2.trans hnr1.symm⟩,
    ⟨hframe2.trans hframe1.symm, hcmd2.trans hcmd1.symm, hbuf2.trans hbuf1.symm, hhost2.trans hhost1.symm,
      hdraws2.trans hdraws1.symm⟩, hresp⟩

/-! ### Known answers (95_test_vectors.md, S5) -/

/-- The round keys of EXP128 are determined by entry 0 (R114). -/
theorem built128_congr {rk rk' : Nat → Word} (h : built128 rk) (h' : built128 rk') (hkey : rk 0 = rk' 0) :
    ∀ r ≤ 10, rk r = rk' r := by
  intro r
  induction r with
  | zero => exact fun _ => hkey
  | succ r ih =>
    intro hr
    have hmem : r + 1 ∈ List.range' 1 10 := List.mem_range'_1.2 (by omega)
    rw [h _ hmem, h' _ hmem, Nat.add_sub_cancel, ih (by omega)]

/-- The round keys of EXP256 are determined by entries 0 and 1 (R117). -/
theorem built256_congr {rk rk' : Nat → Word} (h : built256 rk) (h' : built256 rk') (hkey0 : rk 0 = rk' 0)
    (hkey1 : rk 1 = rk' 1) : ∀ r ≤ 14, rk r = rk' r := by
  intro r
  induction r using Nat.twoStepInduction with
  | zero => exact fun _ => hkey0
  | one => exact fun _ => hkey1
  | more r ih0 ih1 =>
    intro hr
    have hmem : r + 2 ∈ List.range' 2 13 := List.mem_range'_1.2 (by omega)
    rw [h _ hmem, h' _ hmem, Nat.add_sub_cancel, Nat.add_sub_cancel (m := 1) (n := r + 1), ih0 (by omega),
      ih1 (by omega)]

/-- The cipher of a block under the key of an EXP command, expanded into an empty RAM; none for any other
command. -/
def cipherUnder : Instr → Word → Option Word
  | .exp128 kw0, x => some (cipher 10 (fun i => (expand128 kw0 State.reset.rk).getD i 0) x)
  | .exp256 kw0 kw1, x => some (cipher 14 (fun i => (expand256 kw0 kw1 State.reset.rk).getD i 0) x)
  | .enc1 _ _, _ => none
  | .enc4 _ _, _ => none
  | .run _ _ _, _ => none
  | .dbl _, _ => none

/-- In every state an EXP command completes and leaves a context for the cipher under its key, whatever the
RAM held before. -/
theorem exec_of_cipherUnder {e : Instr} {x y : Word} (h : cipherUnder e x = some y) (s : State) :
    ∃ t, exec e s = .next t ∧ hasContext t ∧ cipher t.nr.toNat t.rkAt x = y ∧
      t.mem = s.mem ∧ t.buf = s.buf ∧ t.flt = s.flt ∧ t.resp = s.resp ++ [0] := by
  cases e with
  | exp128 kw0 =>
    cases h
    have hexec := (exec_exp128_iff kw0 s _).2 rfl
    obtain ⟨hkey, hbuilt⟩ := rkAt_of_exec_exp128 hexec
    have hrk := built128_congr hbuilt (built128_expand128 kw0 State.reset.rk)
      (hkey.trans (expand128_getD_zero kw0 State.reset.rk).symm)
    exact ⟨_, hexec, .inl rfl, cipher_congr hrk x, rfl, rfl, rfl, rfl⟩
  | exp256 kw0 kw1 =>
    cases h
    have hexec := (exec_exp256_iff kw0 kw1 s _).2 rfl
    obtain ⟨⟨hkey0, hkey1⟩, hbuilt⟩ := rkAt_of_exec_exp256 hexec
    obtain ⟨hreset0, hreset1⟩ := expand256_getD_key kw0 kw1 State.reset.rk
    have hrk := built256_congr hbuilt (built256_expand256 kw0 kw1 State.reset.rk)
      (hkey0.trans hreset0.symm) (hkey1.trans hreset1.symm)
    exact ⟨_, hexec, .inr rfl, cipher_congr hrk x, rfl, rfl, rfl, rfl⟩
  | enc1 u addr => cases h
  | enc4 u addr => cases h
  | run u addr n => cases h
  | dbl x => cases h

/-- An EXP command and then a block command on one admitted block replace the block by its cipher under the
key, with status 0 twice. -/
theorem runCommands_expand_block {e i : Instr} {u : Bool} {addr : Nat} {s : State} {y : Word}
    (he : cipherUnder e (readBlock s.mem addr) = some y) (hi : blockOperands i = some (u, addr, 1))
    (hflt : s.flt = 0) (halign : isAligned u addr) (hbounds : isInBounds s addr 1) :
    ∃ t, runCommands [e, i] s = .next t ∧ readBlock t.mem addr = y ∧ t.resp = s.resp ++ [0, 0] := by
  obtain ⟨v, hexp, hctx, hcipher, hmem, hbuf, hflt', hresp⟩ := exec_of_cipherUnder he s
  have hbounds' : isInBounds v addr 1 := by rwa [isInBounds, hbuf]
  obtain ⟨t, hexec, henc, hresp', -⟩ := exec_of_isAdmitted hi ⟨hctx, .inr ⟨halign, hbounds'⟩⟩
  refine ⟨t, ?_, ?_, ?_⟩
  · exact runCommands_cons_next_iff.2 ⟨(faulted_eq_false s).2 hflt, v, hexp,
      runCommands_singleton_of_exec (hflt'.trans hflt) hexec⟩
  · rw [← hcipher, ← hmem]
    exact henc.blocks 0 (by decide)
  · rw [hresp', hresp, List.append_assoc]
    rfl

/-- The word of 16 bytes that are written with byte 0 first (R10, S5). -/
def wordOfWritten (v : Word) : Word := wordOfBytes fun k => byteOf v (15 - k)

/-- The block at an address is the written one exactly when its bytes are the written ones, in order. -/
theorem readBlock_eq_wordOfWritten_iff (m : Memory) (addr : Nat) (v : Word) :
    readBlock m addr = wordOfWritten v ↔ ∀ k < 16, readByte m (addr + k) = byteOf v (15 - k) := by
  refine ⟨fun h k hk => ?_, fun h => wordOfBytes_congr h⟩
  rw [← byteOf_readBlock m addr k hk, h, wordOfWritten, byteOf_wordOfBytes _ k hk]

/-- Settles O58: the cipher under each of the six keys is computed, and an EXP command with a block command
is that cipher. -/
theorem knownAnswers : Obligations.KnownAnswers := by
  unfold Obligations.KnownAnswers
  intro byteAt key rows row hrow u addr s hflt halign hbounds hplain i hi
  have hanswers : ∀ row ∈ rows,
      cipherUnder row.1 (wordOfWritten row.2.1) = some (wordOfWritten row.2.2) := by
    decide +kernel +zetaReduce
  have hblock : blockOperands i = some (u, addr, 1) := by
    simp only [List.mem_cons, List.not_mem_nil, or_false] at hi
    rcases hi with rfl | rfl <;> rfl
  have hanswer := hanswers row hrow
  rw [← (readBlock_eq_wordOfWritten_iff s.mem addr row.2.1).2 hplain] at hanswer
  obtain ⟨t, hrun, hcipher, hresp⟩ := runCommands_expand_block hanswer hblock hflt halign hbounds
  exact ⟨t, hrun, (readBlock_eq_wordOfWritten_iff t.mem addr row.2.2).1 hcipher, hresp⟩

end Sys2Proof.Machine
end

section
/-! PROOFS. The statements on the doubler of 44_field_doubler.md: the response of DBL (R161, R168), its branchless
form (R162), its laws (R165), and that it multiplies by `x` in GF(2^128) (R160, R164). -/

namespace Sys2Proof.Machine

/-! ### The mask and the doubling by the top bit (R161, R162) -/

/-- The mask by the top bit (R162). -/
theorem topBitMask_eq (x : Word) : topBitMask x = if x.getLsbD 127 then BitVec.allOnes 128 else 0 := by
  have htop : x.extractLsb' 127 1 = BitVec.ofBool (x.getLsbD 127) := by
    refine BitVec.eq_of_getLsbD_eq fun i hi => ?_
    obtain rfl : i = 0 := by omega
    simp
  rw [topBitMask, htop]
  cases x.getLsbD 127 <;> rfl

/-- The doubling in its conditional form (R161). -/
theorem double_eq_ite (x : Word) : double x = (x <<< 1) ^^^ (if x.getLsbD 127 then 0x87 else 0) := by
  rw [double, topBitMask_eq]
  cases x.getLsbD 127 <;> rfl

theorem double_of_topBit_false {x : Word} (h : x.getLsbD 127 = false) : double x = x <<< 1 := by
  rw [double_eq_ite, h]
  exact BitVec.xor_zero

theorem double_of_topBit_true {x : Word} (h : x.getLsbD 127 = true) : double x = (x <<< 1) ^^^ 0x87 := by
  rw [double_eq_ite, h, if_pos rfl]

theorem getLsbD_shiftLeft_one_zero (x : Word) : (x <<< 1).getLsbD 0 = false := by
  rw [BitVec.getLsbD_shiftLeft]
  rfl

theorem getLsbD_shiftLeft_one_succ (x : Word) (i : Nat) :
    (x <<< 1).getLsbD (i + 1) = (decide (i < 127) && x.getLsbD i) := by
  have hlt : i + 1 < 128 ↔ i < 127 := Nat.succ_lt_succ_iff
  simp [BitVec.getLsbD_shiftLeft, hlt]

/-- The bits of the reduction constant are the exponents of `x^7 + x^2 + x + 1` (R163). -/
theorem getLsbD_reductionPoly :
    ∀ i < 128, reductionPoly.getLsbD i = decide (i = 0 ∨ i = 1 ∨ i = 2 ∨ i = 7) := by decide

/-- The bits of the doubled element: the bits moved up by one, and the reduction constant under the top bit. -/
theorem getLsbD_double (x : Word) {i : Nat} (hi : i < 128) :
    (double x).getLsbD i =
      ((decide (i ≠ 0) && x.getLsbD (i - 1)) ^^ (x.getLsbD 127 && reductionPoly.getLsbD i)) := by
  have hshift : (x <<< 1).getLsbD i = (decide (i ≠ 0) && x.getLsbD (i - 1)) := by
    cases i with
    | zero => rw [getLsbD_shiftLeft_one_zero]; rfl
    | succ i => rw [getLsbD_shiftLeft_one_succ, decide_eq_true (Nat.lt_of_succ_lt_succ hi)]; rfl
  rw [← hshift]
  cases h : x.getLsbD 127 with
  | false => rw [double_of_topBit_false h, Bool.false_and, Bool.xor_false]
  | true => rw [double_of_topBit_true h, BitVec.getLsbD_xor, Bool.true_and]; rfl

/-- Settles O38: DBL sends the conditional form's words and touches nothing else. -/
theorem dblResult : Obligations.DblResult := by
  intro x s
  refine ⟨_, (exec_dbl_iff x s _).2 rfl, ?_, rfl, fun _ => rfl, ⟨rfl, rfl⟩, ⟨rfl, rfl, rfl, rfl, rfl⟩⟩
  rw [double_eq_ite]
  rfl

/-- Settles O39: the mask and the conditional form by the top bit, the bits by the reduction constant's. -/
theorem branchlessDoubling : Obligations.BranchlessDoubling := by
  intro x
  refine ⟨topBitMask_eq x, double_eq_ite x, ?_, fun i hpos hi => ?_⟩
  · rw [getLsbD_double x (by decide), getLsbD_reductionPoly 0 (by decide)]
    simp
  · rw [getLsbD_double x hi, getLsbD_reductionPoly i hi]
    by_cases h : i = 1 ∨ i = 2 ∨ i = 7 <;> simp [h, Nat.ne_of_gt hpos]

/-! ### Linearity, the inverse and the iterates of 1 (R165) -/

theorem double_xor (a b : Word) : double (a ^^^ b) = double a ^^^ double b := by
  refine BitVec.eq_of_getLsbD_eq fun i hi => ?_
  rw [BitVec.getLsbD_xor]
  simp only [getLsbD_double _ hi, BitVec.getLsbD_xor, Bool.and_xor_distrib_left,
    Bool.and_xor_distrib_right, Bool.xor_assoc, Bool.xor_left_comm]

/-- The inverse of the doubling that R165 gives: undo the reduction by the bottom bit, shift down, and set the
top bit to it. -/
def halve (y : Word) : Word :=
  ((y ^^^ (if y.getLsbD 0 then 0x87 else 0)) >>> 1) ||| ((y.extractLsb' 0 1).setWidth 128 <<< 127)

/-- The bottom bit of a doubled element is the top bit of the operand. -/
theorem topBit_halve (y : Word) : (halve y).getLsbD 127 = y.getLsbD 0 := by
  simp [halve]

/-- Shifting the halved element up again gives the element without its reduction, which is even. -/
theorem halve_shiftLeft_one (y : Word) :
    halve y <<< 1 = y ^^^ (if y.getLsbD 0 then 0x87 else 0) := by
  have heven : (y ^^^ (if y.getLsbD 0 then 0x87 else 0 : Word)).getLsbD 0 = false := by
    rw [BitVec.getLsbD_xor]
    cases y.getLsbD 0 <;> rfl
  rw [halve]
  generalize y ^^^ (if y.getLsbD 0 then 0x87 else 0 : Word) = w at heven ⊢
  refine BitVec.eq_of_getLsbD_eq fun i hi => ?_
  cases i with
  | zero => rw [heven, getLsbD_shiftLeft_one_zero]
  | succ i =>
    have hi' : i < 127 := by omega
    rw [getLsbD_shiftLeft_one_succ]
    simp [hi, hi', Nat.add_comm 1 i]

theorem double_halve (y : Word) : double (halve y) = y := by
  rw [double_eq_ite, topBit_halve, halve_shiftLeft_one, BitVec.xor_assoc, BitVec.xor_self, BitVec.xor_zero]

theorem double_bijective : Function.Bijective double :=
  Finite.surjective_iff_bijective.1 fun y => ⟨halve y, double_halve y⟩

/-- Up to `2^127` the doubling of a power of two moves its one bit up. -/
theorem double_one_shiftLeft {k : Nat} (hk : k < 127) : double ((1 : Word) <<< k) = (1 : Word) <<< (k + 1) := by
  have htop : ((1 : Word) <<< k).getLsbD 127 = false := by
    have hne : 127 - k ≠ 0 := by omega
    simp [hne]
  rw [double_of_topBit_false htop, BitVec.shiftLeft_add]

theorem iterate_double_one {k : Nat} (hk : k ≤ 127) : double^[k] 1 = (1 : Word) <<< k := by
  induction k with
  | zero => rfl
  | succ k ih => rw [Function.iterate_succ_apply', ih (by omega), double_one_shiftLeft hk]

/-- From `x^127` on the reduction sets in (R165). -/
theorem iterate_double_one_add (n : Nat) : double^[n + 127] 1 = double^[n] ((1 : Word) <<< 127) := by
  rw [Function.iterate_add_apply, iterate_double_one (Nat.le_refl 127)]

/-- Settles O40: linear by bits, onto by the inverse and so bijective, and the iterates by induction. The
statement's `1 <<< k` is the number shifted and then taken as a word, which is the shifted word by definition. -/
theorem doublingLaws : Obligations.DoublingLaws := by
  refine ⟨double_xor, ⟨double_bijective, double_halve⟩, fun k => iterate_double_one (k := k), ?_, ?_, ?_⟩
  · rw [iterate_double_one_add 1]; decide
  · rw [iterate_double_one_add 2]; decide
  · rw [iterate_double_one_add 3]; decide

/-! ### Doubling as multiplication by `x` in GF(2^128) (R160, R163, R164) -/

section
open Polynomial

/-- The polynomial of a word: bit `i` is the coefficient of `x^i` (R160). -/
noncomputable def wordPoly (v : Word) : (ZMod 2)[X] :=
  ∑ i ∈ Finset.range 128, if v.getLsbD i then X ^ i else 0

/-- The field polynomial `p(x)` (R163). Irreducible, since unification would unfold its power `x^128`. -/
@[irreducible] noncomputable def fieldPoly : (ZMod 2)[X] := X ^ 128 + X ^ 7 + X ^ 2 + X + 1

theorem fieldPoly_def : fieldPoly = X ^ 128 + X ^ 7 + X ^ 2 + X + 1 := by
  unfold fieldPoly
  rfl

theorem coeff_ite_X_pow (b : Bool) (i n : Nat) :
    (if b then X ^ i else 0 : (ZMod 2)[X]).coeff n = if n = i ∧ b then 1 else 0 := by
  cases b <;> simp [coeff_X_pow]

theorem coeff_wordPoly (v : Word) (n : Nat) : (wordPoly v).coeff n = if v.getLsbD n then 1 else 0 := by
  simp only [wordPoly, finsetSum_coeff, coeff_ite_X_pow, ite_and, Finset.sum_ite_eq]
  by_cases hn : n < 128
  · rw [if_pos (Finset.mem_range.2 hn)]
  · rw [if_neg (mt Finset.mem_range.1 hn), BitVec.getLsbD_of_ge v n (by omega), if_neg Bool.false_ne_true]

theorem degree_wordPoly_lt (v : Word) : (wordPoly v).degree < (128 : Nat) :=
  (degree_lt_iff_coeff_zero _ 128).2 fun n hn => by
    rw [coeff_wordPoly, BitVec.getLsbD_of_ge v n hn, if_neg Bool.false_ne_true]

/-- XOR of words is addition of polynomials. -/
theorem wordPoly_xor (v w : Word) : wordPoly (v ^^^ w) = wordPoly v + wordPoly w := by
  ext n
  rw [coeff_add, coeff_wordPoly, coeff_wordPoly, coeff_wordPoly, BitVec.getLsbD_xor]
  cases v.getLsbD n <;> cases w.getLsbD n <;> rfl

/-- The reduction constant is the field polynomial without its leading term (R163). -/
theorem fieldPoly_eq_add_wordPoly : fieldPoly = X ^ 128 + wordPoly 0x87 := by
  have hbits : (Finset.range 128).filter (fun i => (0x87 : Word).getLsbD i) = {7, 2, 1, 0} := by
    decide +kernel
  have hsum : wordPoly 0x87 = X ^ 7 + (X ^ 2 + (X + 1)) := by
    rw [wordPoly, ← Finset.sum_filter, hbits]
    simp
  rw [fieldPoly_def, hsum, add_assoc, add_assoc, add_assoc]

theorem monic_fieldPoly : fieldPoly.Monic := by
  rw [fieldPoly_eq_add_wordPoly]
  exact monic_X_pow_add (degree_wordPoly_lt _)

theorem degree_fieldPoly : fieldPoly.degree = (128 : Nat) := by
  rw [fieldPoly_eq_add_wordPoly, degree_add_eq_left_of_degree_lt] <;> rw [degree_X_pow]
  exact degree_wordPoly_lt _

/-- Multiplication by `x` is the shift, and the term `x^128` where the shift loses the top bit. -/
theorem X_mul_wordPoly (a : Word) :
    X * wordPoly a = wordPoly (a <<< 1) + if a.getLsbD 127 then X ^ 128 else 0 := by
  ext n
  rw [coeff_add, coeff_ite_X_pow, coeff_wordPoly]
  cases n with
  | zero => simp
  | succ n =>
    rw [coeff_X_mul, coeff_wordPoly, getLsbD_shiftLeft_one_succ]
    rcases Nat.lt_trichotomy n 127 with hn | rfl | hn
    · simp [hn, Nat.ne_of_lt hn]
    · simp
    · simp [BitVec.getLsbD_of_ge a n hn, Nat.ne_of_gt hn]

/-- The quotient is the top bit: where it is set, the field polynomial is subtracted once. -/
theorem wordPoly_double_add (a : Word) :
    wordPoly (double a) + fieldPoly * (if a.getLsbD 127 then 1 else 0) = X * wordPoly a := by
  rw [X_mul_wordPoly]
  cases h : a.getLsbD 127 with
  | false => simp [double_of_topBit_false h]
  | true =>
    rw [double_of_topBit_true h, wordPoly_xor, fieldPoly_eq_add_wordPoly, if_pos rfl, if_pos rfl,
      mul_one, add_add_add_comm, CharTwo.add_self_eq_zero, add_zero]

theorem wordPoly_double (a : Word) : wordPoly (double a) = (X * wordPoly a) %ₘ fieldPoly := by
  have hdegree : (wordPoly (double a)).degree < fieldPoly.degree := by
    rw [degree_fieldPoly]
    exact degree_wordPoly_lt _
  exact (div_modByMonic_unique _ _ monic_fieldPoly ⟨wordPoly_double_add a, hdegree⟩).2.symm

/-- Settles O41: the doubled element is the remainder, the quotient being the top bit. -/
theorem doublingIsMultiplicationByX : Obligations.DoublingIsMultiplicationByX := by
  intro a
  exact ⟨fieldPoly_def ▸ wordPoly_double a, double_of_topBit_false, double_of_topBit_true⟩

end

end Sys2Proof.Machine
end

section
/-! PROOFS. The statements on faults of 60_exceptions.md: the checks of a block command in their order (R184), what
a fault leaves alone (R185, R186, R188), and the cores that make no move (R187, R193, R208). -/

namespace Sys2Proof.Machine

/-! ### The checks in their order (R184) -/

/-- With a context, the first check of a non-empty buffer is that of its alignment. -/
theorem blockCheck_of_not_isAligned {s : State} {u : Bool} {addr n : Nat} (hctx : hasContext s) (hn : n ≠ 0)
    (halign : ¬ isAligned u addr) : blockCheck s u addr n = some .align := by
  have hvalid : validContext s.nr = true := (validContext_iff s.nr).2 hctx
  have hmis : alignmentAdmitted u addr = false := by rwa [← Bool.not_eq_true, alignmentAdmitted_iff]
  rw [blockCheck, hvalid, hmis]
  exact if_neg hn

/-- With a context, the bounds of a non-empty aligned buffer decide. -/
theorem blockCheck_of_not_isInBounds {s : State} {u : Bool} {addr n : Nat} (hctx : hasContext s) (hn : n ≠ 0)
    (halign : isAligned u addr) (hbounds : ¬ isInBounds s addr n) : blockCheck s u addr n = some .bounds := by
  have hvalid : validContext s.nr = true := (validContext_iff s.nr).2 hctx
  have hadmits : alignmentAdmitted u addr = true := (alignmentAdmitted_iff u addr).2 halign
  have hout : bufferAdmitted s.buf addr n = false := by rwa [← Bool.not_eq_true, bufferAdmitted_iff]
  rw [blockCheck, hvalid, hadmits, hout]
  exact if_neg hn

/-- A block command that fails a check takes the fault of the first that fails, and that is all (R186). -/
theorem exec_of_blockCheck_some {i : Instr} {u : Bool} {addr n : Nat} {s : State} {c : FaultCode}
    (hi : blockOperands i = some (u, addr, n)) (hflt : s.flt = 0) (hcheck : blockCheck s u addr n = some c) :
    exec i s = .next { s with flt := c.code, resp := s.resp ++ [statusWord c.code] } := by
  obtain ⟨body, hexec, -⟩ := exec_of_blockOperands hi s
  rw [hexec, blockCommand_of_some body hcheck, raiseFault_of_flt_eq_zero hflt]

/-- Only RUN can name a buffer of no blocks (R42). -/
theorem eq_run_of_blockOperands_zero {i : Instr} {u : Bool} {addr : Nat}
    (h : blockOperands i = some (u, addr, 0)) : i = .run u addr 0 := by
  cases i with
  | run u' addr' n' => cases h; rfl
  | _ => cases h

/-- Settles O33: the check that fails first decides, and on no blocks RUN does nothing. -/
theorem blockCheckOrder : Obligations.BlockCheckOrder := by
  refine fun i u addr n s hi hflt => ⟨fun hctx => ?_, fun hctx hn => ?_, fun hctx hn halign => ?_,
    fun hctx hn halign hbounds => ?_⟩
  · exact exec_of_blockCheck_some hi hflt (blockCheck_of_not_hasContext hctx u addr n)
  · subst hn
    obtain ⟨-, hrun, -⟩ := runOfNoBlocks u addr s
    rw [eq_run_of_blockOperands_zero hi, hrun hctx]
  · exact exec_of_blockCheck_some hi hflt (blockCheck_of_not_isAligned hctx hn halign)
  · exact exec_of_blockCheck_some hi hflt (blockCheck_of_not_isInBounds hctx hn halign hbounds)

/-! ### What a fault leaves alone (R185, R186, R188) -/

/-- A command without a buffer raises no fault. -/
theorem exec_flt_of_blockOperands_none {i : Instr} {s t : State} (hi : blockOperands i = none)
    (hexec : exec i s = .next t) : t.flt = s.flt := by
  cases i with
  | exp128 kw0 => rw [exec_exp128_iff] at hexec; rw [hexec]
  | exp256 kw0 kw1 => rw [exec_exp256_iff] at hexec; rw [hexec]
  | dbl x => rw [exec_dbl_iff] at hexec; rw [hexec, respond_flt]
  | _ => cases hi

/-- A command that raises a fault is a block command that fails a check. -/
theorem exists_blockCheck_some_of_exec_faults {i : Instr} {s t : State} (hflt : s.flt = 0)
    (hexec : exec i s = .next t) (hfault : t.flt ≠ 0) :
    ∃ u addr n c, blockOperands i = some (u, addr, n) ∧ blockCheck s u addr n = some c := by
  cases hi : blockOperands i with
  | none => exact absurd ((exec_flt_of_blockOperands_none hi hexec).trans hflt) hfault
  | some operands =>
    obtain ⟨u, addr, n⟩ := operands
    cases hcheck : blockCheck s u addr n with
    | some c => exact ⟨u, addr, n, c, rfl, hcheck⟩
    | none =>
      have hadm := (blockCheck_eq_none_iff_isAdmitted s u addr n).1 hcheck
      obtain ⟨t', hexec', -, -, hflt', -⟩ := exec_of_isAdmitted hi hadm
      obtain rfl : t' = t := (next_eq_next_iff t t').1 (hexec.symm.trans hexec')
      exact absurd (hflt'.trans hflt) hfault

/-- The code of a fault that a check raises (R176, R184). -/
theorem code_of_blockCheck_some {s : State} {u : Bool} {addr n : Nat} {c : FaultCode}
    (h : blockCheck s u addr n = some c) : c.code = 2 ∨ c.code = 3 ∨ c.code = 4 := by
  cases c with
  | illegalCmd => exact absurd h (blockCheck_ne_illegalCmd s u addr n)
  | noContext => exact .inl rfl
  | bounds => exact .inr (.inl rfl)
  | align => exact .inr (.inr rfl)

/-- A block command that fails a check is not admitted. -/
theorem not_isAdmitted_of_blockCheck_some {s : State} {u : Bool} {addr n : Nat} {c : FaultCode}
    (h : blockCheck s u addr n = some c) : ¬ isAdmitted s u addr n := by
  rw [← blockCheck_eq_none_iff_isAdmitted, h]
  exact Option.some_ne_none c

/-- Settles O42: the fault is that of a failed check, before any access, and writes `FLT` and the response
channel only. -/
theorem faultsArePrecise : Obligations.FaultsArePrecise := by
  intro i s t hflt hexec hfault
  obtain ⟨u, addr, n, c, hi, hcheck⟩ := exists_blockCheck_some_of_exec_faults hflt hexec hfault
  obtain rfl := (next_eq_next_iff t _).1 (hexec.symm.trans (exec_of_blockCheck_some hi hflt hcheck))
  exact ⟨code_of_blockCheck_some hcheck, rfl, rfl, ⟨rfl, rfl⟩, ⟨rfl, rfl, rfl, rfl, rfl⟩,
    accesses_of_not_isAdmitted hi (not_isAdmitted_of_blockCheck_some hcheck), (faulted_iff _).2 hfault⟩

/-! ### Cores that make no move (R187, R193, R208) -/

/-- Settles O12: the decoder finds no header, or a header whose payload is incomplete. -/
theorem waitingCoreHasNoStep : Obligations.WaitingCoreHasNoStep := by
  intro s hhost hflt hcmd
  rw [step_of_host_nil hhost, coreMove_of_not_faulted hflt, hcmd, List.append_nil]
  refine ⟨fun hframe => ?_, fun hframe hopen => ?_⟩
  · rw [hframe, decode]
  · obtain ⟨op, hdecode⟩ := (decode_payloadMissing_iff s.frame).2 ⟨hframe, hopen⟩
    rw [hdecode]
    exact if_pos rfl

/-- Settles O43: a faulted core has no move, and without one leaving it the turn changes nothing. -/
theorem faultedCoreDoesNothing : Obligations.FaultedCoreDoesNothing := by
  refine fun s hflt => ⟨fun hhost => ?_, fun hs hhost => ?_⟩
  · rw [step_of_host_nil hhost, coreMove_of_faulted hflt]
  · rw [step_of_host_cons hhost, hostMove_coreTurn_of_faulted (s := { s with host := hs }) hflt]

end Sys2Proof.Machine
end

section
/-! PROOFS. The statements on reset and hazards of 70_reset_and_hazards.md: an assertion of reset between commands
and inside one (R205, R206), the portions in which a command arrives (R208), and the control that depends on no data
(R218). -/

namespace Sys2Proof.Machine

/-! ### Control does not depend on data (R152, R218) -/

/-- Commands that differ in their key or data operand alone name the same buffer. -/
theorem blockOperands_of_sameHeader {i i' : Instr} (h : sameHeader i i' = true) :
    blockOperands i = blockOperands i' := by
  unfold sameHeader at h
  split at h
  · rfl
  · rfl
  · rfl
  · rw [eq_of_beq h]

/-- The checks of a block command read `NR` and `Buf` alone (R184). -/
theorem blockCheck_congr {s s' : State} (hnr : s.nr = s'.nr) (hbuf : s.buf = s'.buf) (u : Bool) (addr n : Nat) :
    blockCheck s u addr n = blockCheck s' u addr n := by
  simp only [blockCheck, hnr, hbuf]

/-- `FLT` after a block command is decided by its checks. -/
theorem exec_flt_of_blockOperands {i : Instr} {u : Bool} {addr n : Nat} {s t : State}
    (hi : blockOperands i = some (u, addr, n)) (hexec : exec i s = .next t) :
    t.flt = (blockCheck s u addr n).elim s.flt (fltAfter s.flt) := by
  obtain ⟨body, hblock, -⟩ := exec_of_blockOperands hi s
  obtain rfl := (next_eq_next_iff _ _).1 (hblock.symm.trans hexec)
  rcases blockCommand_cases u addr n body s with ⟨c, hcheck, heq⟩ | ⟨hcheck, heq⟩ <;> rw [heq, hcheck] <;> rfl

/-- The accesses of a block command are those of the reference order, or none where a check fails. -/
theorem accesses_eq_ite {i : Instr} {u : Bool} {addr n : Nat} (hi : blockOperands i = some (u, addr, n))
    (s : State) :
    accesses i s = if (blockCheck s u addr n).isNone then referenceAccesses addr n else [] := by
  by_cases hadm : isAdmitted s u addr n
  · rw [accessesInReferenceOrder i u addr n s hi hadm, (blockCheck_eq_none_iff_isAdmitted s u addr n).2 hadm]
    rfl
  · rw [accesses_of_not_isAdmitted hi hadm, if_neg]
    rwa [Option.isNone_iff_eq_none, blockCheck_eq_none_iff_isAdmitted]

/-- Settles O37: a command without a buffer makes no access and raises no fault, and those of a block command are
decided by its operands and by the checks. -/
theorem controlIgnoresData : Obligations.ControlIgnoresData := by
  intro i i' s s' t t' hheader hnr hbuf hflt hexec hexec'
  have hoperands := blockOperands_of_sameHeader hheader
  cases hi : blockOperands i with
  | none =>
    have hi' := hoperands.symm.trans hi
    rw [accesses_of_blockOperands_none hi, accesses_of_blockOperands_none hi',
      exec_flt_of_blockOperands_none hi hexec, exec_flt_of_blockOperands_none hi' hexec']
    exact ⟨rfl, hflt⟩
  | some operands =>
    obtain ⟨u, addr, n⟩ := operands
    have hi' := hoperands.symm.trans hi
    have hcheck := blockCheck_congr hnr hbuf u addr n
    rw [accesses_eq_ite hi, accesses_eq_ite hi', exec_flt_of_blockOperands hi hexec,
      exec_flt_of_blockOperands hi' hexec', hcheck, hflt]
    exact ⟨rfl, rfl⟩

/-! ### What every assertion of reset leaves (R34, R205) -/

/-- `t` has the registers and the framing of a core that was reset, and `Buf`, the response channel and the host's
plans of `s` (R205; log 11). -/
structure ResetOf (s t : State) : Prop where
  nr : t.nr = 0
  flt : t.flt = 0
  fault : t.faultOutput = false
  frame : t.frame = []
  resp : t.resp = s.resp
  buf : t.buf = s.buf
  host : t.host = s.host

/-- The reset input (R205). -/
theorem resetOf_applyReset (s : State) : ResetOf s s.applyReset :=
  ⟨rfl, rfl, rfl, rfl, rfl, rfl, rfl⟩

/-- Reset inside a command (R206). -/
theorem resetOf_abandonMove (s t : State) : ResetOf s (abandonMove s t) := by
  rcases abandonMove_cases s t with ⟨k, h⟩ | ⟨pickKey, pick, h⟩ <;> rw [h] <;>
    exact ⟨rfl, rfl, rfl, rfl, rfl, rfl, rfl⟩

/-- Reset wherever it strikes (R205, R206). -/
theorem resetOf_hostMove_resetInCommand (s : State) : ResetOf s (hostMove .resetInCommand s) := by
  rcases hostMove_resetInCommand_cases s with h | ⟨t, -, h⟩ <;> rw [h]
  · exact resetOf_applyReset s
  · exact resetOf_abandonMove s t

/-- Settles O49: by the values of `State.reset`. -/
theorem resetValues : Obligations.ResetValues := ⟨rfl, rfl, rfl, rfl⟩

/-- Settles O50: the step is the reset input, which leaves memory and the channels alone. -/
theorem resetInput : Obligations.ResetInput := by
  intro s hs hhost
  obtain ⟨hnr, hflt, hfault, hframe, hresp, hbuf, hhost'⟩ := resetOf_applyReset { s with host := hs }
  exact ⟨_, step_of_host_cons hhost, hnr, hflt, hfault, hframe, rfl, hbuf, hhost', rfl, hresp⟩

/-! ### Memory and the command channel after a reset inside a command (R206; log 10) -/

/-- Every byte holds its old value or the one the move would have given it (R206). -/
theorem readByte_abandonMove (s t : State) (a : Nat) :
    readByte (abandonMove s t).mem a = readByte s.mem a ∨ readByte (abandonMove s t).mem a = readByte t.mem a := by
  rcases abandonMove_cases s t with ⟨k, h⟩ | ⟨pickKey, pick, h⟩ <;> rw [h, applyReset_mem]
  · exact .inl rfl
  · rw [readByte_mixMemory]
    cases pick a
    · exact .inl rfl
    · exact .inr rfl

/-- Of the words the move would have taken, only some are gone, or all of them. -/
theorem abandonMove_cmd (s t : State) :
    (∃ k < s.cmd.length - t.cmd.length, (abandonMove s t).cmd = s.cmd.drop k) ∨ (abandonMove s t).cmd = t.cmd := by
  unfold abandonMove
  dsimp only
  split
  · next hk => exact .inl ⟨_, hk, rfl⟩
  · exact .inr rfl

/-- Where the move takes words from the front of the channel, so does the reset that abandons it, and no more. -/
theorem abandonMove_cmd_suffix {s t : State} (h : t.cmd <:+ s.cmd) :
    (abandonMove s t).cmd <:+ s.cmd ∧ t.cmd <:+ (abandonMove s t).cmd := by
  rcases abandonMove_cmd s t with ⟨k, hk, hcmd⟩ | hcmd <;> rw [hcmd]
  · refine ⟨List.drop_suffix k s.cmd, List.suffix_of_suffix_length_le h (List.drop_suffix k s.cmd) ?_⟩
    rw [List.length_drop]
    omega
  · exact ⟨h, List.suffix_rfl⟩

/-! ### Reset while a whole command is there (R206) -/

/-- The words after a command are those behind its header and payload (R61, R71). -/
theorem rest_eq_drop_of_decode_ok {h : Lane} {ws rest : List Lane} {i : Instr}
    (hdecode : decode (h :: ws) = .ok (i, rest)) :
    ∃ op, selectOpcode h = some op ∧ rest = ws.drop (payloadWords op) := by
  obtain ⟨op, hop, hpayload⟩ := (decode_cons_eq_ok_iff h ws rest i).1 hdecode
  have hwords := (List.take_append_drop (payloadWords op) ws).trans (readPayload_rest hpayload)
  exact ⟨op, hop, (List.append_cancel_left hwords).symm⟩

/-- The words already received are all of the command, so the words after it are still in the channel (R61, R71). -/
theorem rest_suffix_of_decode_ok {frame cmd rest : List Lane} {i : Instr} (hopen : frameOpen frame = true)
    (hdecode : decode (frame ++ cmd) = .ok (i, rest)) : rest <:+ cmd := by
  cases frame with
  | nil =>
    cases cmd with
    | nil => cases hdecode
    | cons h ws =>
      obtain ⟨op, -, rfl⟩ := rest_eq_drop_of_decode_ok hdecode
      exact (List.drop_suffix (payloadWords op) ws).trans (List.suffix_cons h ws)
  | cons h ps =>
    rw [List.cons_append] at hdecode
    obtain ⟨op, hop, rfl⟩ := rest_eq_drop_of_decode_ok hdecode
    have hfew : ps.length < payloadWords op := by simpa [frameOpen, hop] using hopen
    rw [List.drop_append, List.drop_of_length_le hfew.le, List.nil_append]
    exact List.drop_suffix (payloadWords op - ps.length) cmd

/-- No command takes words from the channel when it executes: they are taken before (R61). -/
theorem exec_cmd {i : Instr} {s t : State} (h : exec i s = .next t) : t.cmd = s.cmd := by
  cases i with
  | exp128 kw0 => rw [exec_exp128_iff] at h; rw [h]
  | exp256 kw0 kw1 => rw [exec_exp256_iff] at h; rw [h]
  | enc1 u addr => rw [exec_enc1_iff] at h; rw [h, blockCommand_cmd]
  | enc4 u addr => rw [exec_enc4_iff] at h; rw [h, blockCommand_cmd]
  | run u addr n => rw [exec_run_iff] at h; rw [h, blockCommand_cmd]
  | dbl x => rw [exec_dbl_iff] at h; rw [h, respond_cmd]

/-- Where the core has a move, a reset inside a command abandons it. -/
theorem hostMove_resetInCommand_of_next {s t : State} (h : coreMove s = .next t) :
    hostMove .resetInCommand s = abandonMove s t := by
  rw [hostMove, h]

/-- Settles O51: the move that is abandoned is the execution of the command. -/
theorem resetDuringCommand : Obligations.ResetDuringCommand := by
  intro s u hs i rest hhost hflt hdecode hexec
  have hmove := (coreMove_of_decode_ok (s := { s with host := hs }) hflt hdecode).trans hexec
  refine ⟨_, step_of_host_cons hhost, ?_⟩
  rw [hostMove_resetInCommand_of_next hmove]
  obtain ⟨hnr, hflt', -, hframe, hresp, hbuf, hhost'⟩ := resetOf_abandonMove { s with host := hs } u
  refine ⟨hnr, hflt', hframe, hresp, hbuf, hhost', readByte_abandonMove { s with host := hs } u, fun hopen => ?_⟩
  have hcmd : u.cmd = rest := exec_cmd hexec
  obtain ⟨htaken, hrest⟩ := abandonMove_cmd_suffix (s := { s with host := hs }) (t := u)
    (hcmd ▸ rest_suffix_of_decode_ok hopen hdecode)
  exact ⟨htaken, hcmd ▸ hrest⟩

/-! ### Reset while no whole command is there (R205, R206) -/

/-- The core is faulted, has no word, has an incomplete command, or is at an illegal header. -/
abbrev hasNoCommand (s : State) : Prop :=
  s.flt ≠ 0 ∨ s.frame ++ s.cmd = [] ∨ (∃ op, decode (s.frame ++ s.cmd) = .error (.payloadMissing op)) ∨
    (s.frame = [] ∧ ∃ h, decode s.cmd = .error (.illegalHeader h))

/-- Without a command to execute, a move of the core takes words and leaves memory alone (R74, R187, R193, R208). -/
theorem coreMove_of_hasNoCommand {s t : State} (hno : hasNoCommand s) (hmove : coreMove s = .next t) :
    t.mem = s.mem ∧ t.cmd <:+ s.cmd := by
  obtain ⟨hflt, -⟩ := coreMove_next_cases hmove
  rcases hno with hfaulted | hnil | ⟨op, hdecode⟩ | ⟨hframe, h, hdecode⟩
  · exact absurd hflt hfaulted
  · rw [coreMove_of_not_faulted hflt, hnil] at hmove
    cases hmove
  · rw [coreMove_of_not_faulted hflt, hdecode] at hmove
    dsimp only at hmove
    split at hmove <;> cases hmove
    exact ⟨rfl, List.nil_suffix⟩
  · have hwords : s.frame ++ s.cmd = s.cmd := by rw [hframe, List.nil_append]
    rw [coreMove_of_illegalHeader hflt (hwords.symm ▸ hdecode), hwords] at hmove
    cases hmove
    exact ⟨rfl, List.drop_suffix 1 s.cmd⟩

/-- Without a command to execute, a reset leaves memory alone and at most takes words (R205, R206). -/
theorem resetInCommand_of_hasNoCommand {s : State} (hno : hasNoCommand s) :
    (∀ a, readByte (hostMove .resetInCommand s).mem a = readByte s.mem a) ∧
      (hostMove .resetInCommand s).cmd <:+ s.cmd := by
  rcases hostMove_resetInCommand_cases s with h | ⟨t, hmove, h⟩ <;> rw [h]
  · exact ⟨fun a => rfl, List.suffix_rfl⟩
  · obtain ⟨hmem, hcmd⟩ := coreMove_of_hasNoCommand hno hmove
    refine ⟨fun a => ?_, (abandonMove_cmd_suffix hcmd).1⟩
    have hbyte := readByte_abandonMove s t a
    rwa [hmem, or_self] at hbyte

/-- On a faulted core a reset is one between commands (R187). -/
theorem hostMove_resetInCommand_of_faulted {s : State} (h : s.flt ≠ 0) :
    hostMove .resetInCommand s = s.applyReset := by
  rw [hostMove, coreMove_of_faulted h]

/-- At an illegal header the core takes one word, and a reset lets it take that one or none (R74). -/
theorem resetInCommand_cmd_of_illegalHeader {s : State} {h : Lane} {ws : List Lane} (hflt : s.flt = 0)
    (hframe : s.frame = []) (hcmd : s.cmd = h :: ws) (hdecode : decode s.cmd = .error (.illegalHeader h)) :
    (hostMove .resetInCommand s).cmd = s.cmd ∨ (hostMove .resetInCommand s).cmd = ws := by
  have hwords : s.frame ++ s.cmd = s.cmd := by rw [hframe, List.nil_append]
  have hmove := coreMove_of_illegalHeader hflt (hwords.symm ▸ hdecode)
  rw [hwords, hcmd] at hmove
  rw [hostMove_resetInCommand_of_next hmove, hcmd]
  rcases abandonMove_cmd s _ with ⟨k, hk, hcmd'⟩ | hcmd' <;> rw [hcmd']
  · have hzero : k = 0 := by
      rw [hcmd] at hk
      simpa using hk
    exact .inl (by rw [hzero, hcmd, List.drop_zero])
  · exact .inr rfl

/-- Settles O59: without a command to execute the core at most takes words before the reset. -/
theorem resetWhileReceiving : Obligations.ResetWhileReceiving := by
  intro s hs hhost
  obtain ⟨hnr, hflt, hfault, hframe, hresp, hbuf, hhost'⟩ := resetOf_hostMove_resetInCommand { s with host := hs }
  refine ⟨_, step_of_host_cons hhost, fun hno => ?_, fun hfaulted => ?_, fun h ws => ?_⟩
  · obtain ⟨hmem, hcmd⟩ := resetInCommand_of_hasNoCommand (s := { s with host := hs }) hno
    exact ⟨hnr, hflt, hfault, hframe, hresp, hbuf, hhost', hmem, hcmd⟩
  · rw [hostMove_resetInCommand_of_faulted (s := { s with host := hs }) hfaulted]
    rfl
  · exact resetInCommand_cmd_of_illegalHeader (s := { s with host := hs })

/-! ### The portions in which a command arrives (R71, R208; log 12) -/

/-- With words still in the channel, the core's move does not depend on how many of the words before them it has
taken already. -/
theorem coreMove_frame_append (s : State) (frame a : List Lane) {b : List Lane} (hb : b ≠ []) :
    coreMove { s with frame := frame ++ a, cmd := b } = coreMove { s with frame := frame, cmd := a ++ b } := by
  have hab : a ++ b ≠ [] := List.append_ne_nil_of_right_ne_nil a hb
  by_cases hflt : s.flt = 0
  · rw [coreMove_of_not_faulted (s := { s with frame := frame ++ a, cmd := b }) hflt,
      coreMove_of_not_faulted (s := { s with frame := frame, cmd := a ++ b }) hflt]
    simp only [List.append_assoc, hb, hab]
  · rw [coreMove_of_faulted (s := { s with frame := frame ++ a, cmd := b }) hflt,
      coreMove_of_faulted (s := { s with frame := frame, cmd := a ++ b }) hflt]

/-- Settles O11: the core's move takes an incomplete portion, and after that depends on all words together. -/
theorem framingIgnoresArrival : Obligations.FramingIgnoresArrival := by
  intro s a b op hhost hflt ha hb hdecode
  constructor
  · rw [step_of_host_nil (s := { s with cmd := a }) hhost, coreMove_of_not_faulted (s := { s with cmd := a }) hflt,
      hdecode]
    exact if_neg ha
  · rw [step_of_host_nil (s := { s with frame := s.frame ++ a, cmd := b }) hhost,
      step_of_host_nil (s := { s with cmd := a ++ b }) hhost, coreMove_frame_append s s.frame a hb]

end Sys2Proof.Machine
end

section
/-! PROOFS. The opcode table and the sample command words: no header matches two rows of the match and mask
table (R78), and command words of 95_test_vectors.md decode to the commands they stand for there. -/

namespace Sys2Proof

/-- An opcode has one row in the table. -/
theorem opcodeTable_op_injective : ∀ r ∈ opcodeTable, ∀ r' ∈ opcodeTable, r.op = r'.op → r = r' := by
  decide

/-- A header is a legal header of at most one opcode: `OP` alone tells the opcodes apart (R64). -/
theorem Opcode.HasHeader.op_unique {op op' : Opcode} {h : Lane} (hop : op.HasHeader h)
    (hop' : op'.HasHeader h) : op = op' :=
  Opcode.code_injective (hop.code.symm.trans hop'.code)

/-- Settles O4: two rows that a header matches have the opcode of that header, and an opcode has one row. -/
theorem opcodeRowsExclusive : Obligations.OpcodeRowsExclusive := by
  intro h r hr r' hr' hmatch hmatch'
  have hop : r.op.HasHeader h := (row_matches_iff hr h).1 hmatch
  have hop' : r'.op.HasHeader h := (row_matches_iff hr' h).1 hmatch'
  exact opcodeTable_op_injective r hr r' hr' (hop.op_unique hop')

/-- Settles O8: the first five headers are header words of their opcodes, so their payload is read; the sixth
has `U = 1` with the opcode of DBL, which has no variant. -/
theorem sampleCommandWords : Obligations.SampleCommandWords := by
  refine ⟨?exp128, ?enc1, ?enc4, ?run, ?dbl, ?illegal⟩
  case exp128 => exact decode_headerWord (op := .exp128) (u := false) (fun _ => rfl) (by decide)
  case enc1 => exact decode_headerWord (op := .enc1) (u := false) nofun rfl
  case enc4 => exact decode_headerWord (op := .enc4) (u := true) nofun rfl
  case run => exact decode_headerWord (op := .run) (u := false) nofun rfl
  case dbl => exact decode_headerWord (op := .dbl) (u := false) (fun _ => rfl) (by decide)
  case illegal =>
    have hu : headerU 0x00000106 = true := by decide
    have hop : headerOp 0x00000106 = 6 := by decide
    rw [decode_eq_illegalHeader_iff, selectOpcode_eq_none_iff_fields]
    exact .inr (.inr ⟨hu, .inr (.inr hop)⟩)

end Sys2Proof
end
